-- ==== Sys2Proof/Word.lean ====
section
/-! DEFINITION. The word types of the dispatcher and nothing else (spec 00_scope.md, rules R6 and R8). -/

namespace Sys2Proof

/-- An 8-bit value: a register, a memory cell, an opcode or operand byte (rules R6, R8; `XLEN` = 8). -/
abbrev Byte := BitVec 8

/-- The width of the program counter, `PCW` = 16 (rules R6, R25). -/
abbrev PcWord := BitVec 16

/-- A register index 0 to 7 (rule R21, `NREG` = 8). -/
abbrev Reg := Fin 8

end Sys2Proof
end

