-- ==== Sys2Proof/Syntax.lean ====
section
/-! DEFINITION. The 21 instructions (spec 30_encoding.md rule R86), one constructor per row of opcode_table.json.
An operand is the instruction's operand BYTE as it stands in memory: a register operand is one whole byte whose value is
the index (rule R84), and a byte above 7 is fetched like any other and refused only when the instruction executes
(rules R89 and R245, phase 4), so the syntax keeps the byte. `a` is the source's operand_a, `b` its operand_b. -/

namespace Sys2Proof

/-- An instruction with its operand bytes (rules R80, R82). -/
inductive Instr where
  /-- HLT, format `Z` (rule R210). -/
  | hlt
  /-- RET, format `Z` (rule R192). -/
  | ret
  /-- PUSH, format `R` (rule R181). -/
  | push (a : Byte)
  /-- POP, format `R` (rule R183). -/
  | pop (a : Byte)
  /-- PRN, format `R` (rule R171). -/
  | prn (a : Byte)
  /-- CALL, format `R` (rule R191). -/
  | call (a : Byte)
  /-- JMP, format `R` (rule R193). -/
  | jmp (a : Byte)
  /-- JEQ, format `R` (rule R194). -/
  | jeq (a : Byte)
  /-- JNE, format `R` (rule R195). -/
  | jne (a : Byte)
  /-- NOT, format `R`: one operand (rules R94, R149). -/
  | not (a : Byte)
  /-- LDI, format `RI`: register byte and immediate byte (rule R170). -/
  | ldi (a imm : Byte)
  /-- ADD, format `RR` (rule R141). -/
  | add (a b : Byte)
  /-- SUB, format `RR` (rule R142). -/
  | sub (a b : Byte)
  /-- MUL, format `RR` (rule R143). -/
  | mul (a b : Byte)
  /-- MOD, format `RR` (rule R144). -/
  | mod (a b : Byte)
  /-- CMP, format `RR` (rule R145). -/
  | cmp (a b : Byte)
  /-- AND, format `RR` (rule R146). -/
  | and (a b : Byte)
  /-- OR, format `RR` (rule R147). -/
  | or (a b : Byte)
  /-- XOR, format `RR` (rule R148). -/
  | xor (a b : Byte)
  /-- SHL, format `RR` (rule R150). -/
  | shl (a b : Byte)
  /-- SHR, format `RR` (rule R151). -/
  | shr (a b : Byte)
  deriving DecidableEq, Repr

end Sys2Proof
end

