-- ==== Sys2Proof/WellFormed.lean ====
section
/-! DEFINITION. Which instruction terms have only legal operands (spec 30_encoding.md rule R89): every register-index
byte is 0 to 7. The immediate of LDI may be any byte (rules R85, R89). -/

namespace Sys2Proof

/-- A register-index byte names a register: its value is at most 7 (rule R89). -/
def regByteOk (b : Byte) : Bool := decide (b.toNat ≤ 7)

/-- Every register-index operand of the instruction is 0 to 7 (rule R89). -/
def Instr.wellFormed : Instr → Bool
  | .hlt => true
  | .ret => true
  | .push a => regByteOk a
  | .pop a => regByteOk a
  | .prn a => regByteOk a
  | .call a => regByteOk a
  | .jmp a => regByteOk a
  | .jeq a => regByteOk a
  | .jne a => regByteOk a
  | .not a => regByteOk a
  | .ldi a _ => regByteOk a
  | .add a b => regByteOk a && regByteOk b
  | .sub a b => regByteOk a && regByteOk b
  | .mul a b => regByteOk a && regByteOk b
  | .mod a b => regByteOk a && regByteOk b
  | .cmp a b => regByteOk a && regByteOk b
  | .and a b => regByteOk a && regByteOk b
  | .or a b => regByteOk a && regByteOk b
  | .xor a b => regByteOk a && regByteOk b
  | .shl a b => regByteOk a && regByteOk b
  | .shr a b => regByteOk a && regByteOk b

end Sys2Proof
end

