-- ==== Sys2Proof/Decode.lean ====
section
/-! DEFINITION. The opcode table, the decoder and the encoder (spec 30_encoding.md; phases 1 to 3 of rule R111). -/

namespace Sys2Proof

/-- The mnemonics of the opcode table (rule R86). -/
inductive Mnemonic where
  | hlt | ret | push | pop | prn | call | jmp | jeq | jne | not | ldi
  | add | sub | mul | mod | cmp | and | or | xor | shl | shr
  deriving DecidableEq, Repr

/-- THE OPCODE TABLE of rule R86: the byte that selects each instruction. HLT, LDI and PRN are the source's; the other
eighteen the spec supplies from general knowledge and asks to be held as a table (decision D2; UNVERIFIED, log entry 1). -/
def opcode : Mnemonic → Byte
  | .hlt => 0x01
  | .ret => 0x11
  | .push => 0x45
  | .pop => 0x46
  | .prn => 0x47
  | .call => 0x50
  | .jmp => 0x54
  | .jeq => 0x55
  | .jne => 0x56
  | .not => 0x69
  | .ldi => 0x82
  | .add => 0xA0
  | .sub => 0xA1
  | .mul => 0xA2
  | .mod => 0xA4
  | .cmp => 0xA7
  | .and => 0xA8
  | .or => 0xAA
  | .xor => 0xAB
  | .shl => 0xAC
  | .shr => 0xAD

/-- The eleven operations of the ALU (rule R87). -/
def aluMnemonics : List Mnemonic := [.not, .add, .sub, .mul, .mod, .cmp, .and, .or, .xor, .shl, .shr]

/-- The ten rows of the Instruction Table (rule R87). -/
def tableMnemonics : List Mnemonic := [.hlt, .ret, .push, .pop, .prn, .call, .jmp, .jeq, .jne, .ldi]

/-- `cnt`, bits 7:6 of the opcode byte: the operand count (rule R81). -/
def cntField (ir : Byte) : Nat := ir.toNat / 64

/-- `alu`, bit 5: the instruction is routed to the ALU (rule R81; bit position UNVERIFIED, log entry 1). -/
def aluBit (ir : Byte) : Bool := ir.getLsbD 5

/-- `spc`, bit 4: the instruction writes `pc` itself (rule R81). -/
def spcBit (ir : Byte) : Bool := ir.getLsbD 4

/-- `id`, bits 3:0: the identifier within the class (rule R81; width UNVERIFIED, log entry 1). No rule selects by it
alone (rule R86). -/
def idField (ir : Byte) : Nat := ir.toNat % 16

/-- The length of an instruction, from its first byte alone: `ir[7:6]` + 1 (rule R83). -/
def instrLength (ir : Byte) : Nat := cntField ir + 1

/-- Why bytes are no instruction. -/
inductive DecodeError where
  /-- There is no opcode byte at all. -/
  | noOpcode
  /-- `ir[5]` = 0 and `ir` is none of the ten Instruction Table opcodes (rule R90). -/
  | invalidInstruction (ir : Byte)
  /-- `ir[5]` = 1 and `ir` is none of the eleven ALU opcodes (rule R91). -/
  | unsupportedALUOperation (ir : Byte)
  /-- The opcode is recognised and one of its operand bytes is not there (rule R114). `fetched` holds the bytes before it,
  the opcode first. -/
  | missingOperand (fetched : List Byte)
  deriving DecidableEq, Repr

/-- Phase 2: the `alu` bit chooses the table, then the whole byte must match a row (rules R87, R113). -/
def recognise (ir : Byte) : Except DecodeError Mnemonic :=
  if aluBit ir then
    match aluMnemonics.find? (fun m => opcode m == ir) with
    | some m => .ok m
    | none => .error (.unsupportedALUOperation ir)
  else
    match tableMnemonics.find? (fun m => opcode m == ir) with
    | some m => .ok m
    | none => .error (.invalidInstruction ir)

/-- The instruction a row of the table makes of its operand bytes. A row of format `Z` has no use for either byte and a
row of format `R` none for the second (rule R82). -/
def assemble (m : Mnemonic) (opa opb : Byte) : Instr :=
  match m with
  | .hlt => .hlt
  | .ret => .ret
  | .push => .push opa
  | .pop => .pop opa
  | .prn => .prn opa
  | .call => .call opa
  | .jmp => .jmp opa
  | .jeq => .jeq opa
  | .jne => .jne opa
  | .not => .not opa
  | .ldi => .ldi opa opb
  | .add => .add opa opb
  | .sub => .sub opa opb
  | .mul => .mul opa opb
  | .mod => .mod opa opb
  | .cmp => .cmp opa opb
  | .and => .and opa opb
  | .or => .or opa opb
  | .xor => .xor opa opb
  | .shl => .shl opa opb
  | .shr => .shr opa opb

/-- THE DECODER: phases 1 to 3 of rule R111 over a source of bytes, `get k` being the byte `k` places after the opcode, if
there is one. Recognition comes before any operand is asked for (rule R117), and exactly `cnt` operands are asked for
(rule R114); an operand the instruction does not have is not looked at, and the 0 standing in for it reaches no
instruction (`assemble`). -/
def decodeFrom (get : Nat → Option Byte) : Except DecodeError Instr :=
  match get 0 with
  | none => .error .noOpcode
  | some ir =>
    match recognise ir with
    | .error e => .error e
    | .ok m =>
      match (if 1 ≤ cntField ir then get 1 else some 0) with
      | none => .error (.missingOperand [ir])
      | some opa =>
        match (if cntField ir = 2 then get 2 else some 0) with
        | none => .error (.missingOperand [ir, opa])
        | some opb => .ok (assemble m opa opb)

/-- The row of the opcode table an instruction belongs to. -/
def Instr.mnemonic : Instr → Mnemonic
  | .hlt => .hlt
  | .ret => .ret
  | .push _ => .push
  | .pop _ => .pop
  | .prn _ => .prn
  | .call _ => .call
  | .jmp _ => .jmp
  | .jeq _ => .jeq
  | .jne _ => .jne
  | .not _ => .not
  | .ldi _ _ => .ldi
  | .add _ _ => .add
  | .sub _ _ => .sub
  | .mul _ _ => .mul
  | .mod _ _ => .mod
  | .cmp _ _ => .cmp
  | .and _ _ => .and
  | .or _ _ => .or
  | .xor _ _ => .xor
  | .shl _ _ => .shl
  | .shr _ _ => .shr

/-- The opcode byte of an instruction. -/
def Instr.ir (i : Instr) : Byte := opcode i.mnemonic

/-- Decode the instruction at the head of a list of bytes and give back the bytes after it (rules R80, R83). -/
def decode (bytes : List Byte) : Except DecodeError (Instr × List Byte) :=
  match decodeFrom (fun k => bytes[k]?) with
  | .error e => .error e
  | .ok i => .ok (i, bytes.drop (instrLength i.ir))

/-- The operand bytes of an instruction, in address order (rules R56, R82). -/
def Instr.operands : Instr → List Byte
  | .hlt => []
  | .ret => []
  | .push a => [a]
  | .pop a => [a]
  | .prn a => [a]
  | .call a => [a]
  | .jmp a => [a]
  | .jeq a => [a]
  | .jne a => [a]
  | .not a => [a]
  | .ldi a imm => [a, imm]
  | .add a b => [a, b]
  | .sub a b => [a, b]
  | .mul a b => [a, b]
  | .mod a b => [a, b]
  | .cmp a b => [a, b]
  | .and a b => [a, b]
  | .or a b => [a, b]
  | .xor a b => [a, b]
  | .shl a b => [a, b]
  | .shr a b => [a, b]

/-- THE ENCODER: the opcode at the lowest address, then the operand bytes (rules R80, R82, R86). -/
def encode (i : Instr) : List Byte := i.ir :: i.operands

/-- Byte `k` of a number whose low byte lies at the lowest address. -/
def byteOfWord (w k : Nat) : Byte := BitVec.ofNat 8 (w / 256 ^ k)

/-- The bytes of an instruction word of `nbits` bits as opcode_table.json numbers them, followed by zeros up to the longest
instruction, 3 bytes (rule R80). -/
def tableWordBytes (nbits w : Nat) : List Byte :=
  let v := w % 2 ^ nbits
  [byteOfWord v 0, byteOfWord v 1, byteOfWord v 2]

/-- What the decoder reads from an instruction word of the opcode table. -/
def decodeTableWord (nbits w : Nat) : Option Instr :=
  match decode (tableWordBytes nbits w) with
  | .ok (i, _) => some i
  | .error _ => none

end Sys2Proof
end

