-- ==== Sys2Proof/Config.lean ====
section
/-! DEFINITION. What one build of the hardware fixes (spec 00_scope.md rule R6): the memory capacity, which the
spec leaves as a parameter, and the two constants of the stack pointer. The third configuration table, the opcode
bytes (rule R86), stands in Sys2Proof/Decode.lean. There is no free value: the spec leaves none (93_implementation_defined.md,
end of section 1). -/

namespace Sys2Proof

/-- The one parameter rule R6 leaves open: `MEM_CELLS`, the number of memory cells. It is no part of the state
(rule R20). This hardware's value is `Machine.hardware`. -/
structure Config where
  /-- `MEM_CELLS` (rules R6, R50). -/
  memCells : Nat
  deriving DecidableEq, Repr

/-- The capacities for which every rule of the spec is written: 256 <= `MEM_CELLS` <= 65,533 (rule R6). -/
abbrev Config.legal (c : Config) : Prop := 256 ≤ c.memCells ∧ c.memCells ≤ 65533

/-- `SP_INDEX`: register 7 is the stack pointer (rules R6, R23). -/
abbrev Config.spIndex : Reg := 7

/-- `SP_RESET`: the reset value of register 7, 0xF4 (rules R6, R36). -/
abbrev Config.spReset : Byte := 0xF4

end Sys2Proof
end

