-- ==== Sys2Proof/Machine/State.lean ====
section
/-! DEFINITION. The architectural state, exactly the tuple of spec 10_state.md rule R20: registers, pc, FL, memory, output
stream, run state. The latches ir, opa, opb live inside one instruction and are local values of the step, kept only in the
report of a fault (rule R35); the
MAR/MDR pair is left out by the spec (rule R33). Then the reset state, and the ways a step of the model can end other than in
a next state. -/

namespace Sys2Proof.Machine

/-- The six fault causes (rule R240). -/
inductive FaultCause where
  /-- 1: an Instruction Table opcode that is none of the ten (rule R241). -/
  | invalidInstruction
  /-- 2: an ALU opcode that is none of the eleven (rule R242). -/
  | unsupportedALUOperation
  /-- 3: the address of the opcode or of a needed operand byte is at or above `MEM_CELLS` (rule R244). -/
  | addressOutOfRange
  /-- 4: a register-index operand byte above 7 (rule R245). -/
  | registerIndexOutOfRange
  /-- 5: MOD by a register that holds 0 (rule R246). -/
  | divideByZero
  /-- 6: the return address of a CALL does not fit one cell (rule R247). -/
  | valueOutOfRange
  deriving DecidableEq, Repr

/-- The record a fault leaves for the host: the `info` of rule R243, with the current values of the three latches (rule R35,
log entry 9). `value` is an exact integer, as the pseudocode's
integers are (rule R9). -/
structure FaultInfo where
  /-- `A`, the address of the faulting instruction's opcode byte. -/
  pc : PcWord
  /-- The latch `ir`: the opcode byte, if phase 1 completed (rules R35, R243). -/
  ir : Option Byte
  /-- The latch `opa`: the first operand byte, if the instruction has one and phase 3 fetched it (rule R35). -/
  opa : Option Byte
  /-- The latch `opb`: the second operand byte, if the instruction has one and phase 3 fetched it (rule R35). -/
  opb : Option Byte
  /-- `info.value` of the table of rule R240. -/
  value : Nat
  /-- The eight registers as they stood. -/
  regs : Vector Byte 8
  deriving DecidableEq, Repr

/-- The run state (rule R31). -/
inductive Run where
  /-- The steady state: the dispatcher executes the instruction at `pc`. -/
  | running
  /-- Terminal, entered by HLT. -/
  | halted
  /-- Terminal, entered by any fault. -/
  | faulted (cause : FaultCause) (info : FaultInfo)
  deriving DecidableEq, Repr

/-- Memory: the cells that hold something other than what an unlisted cell reads as, by rising address. The form is
`Memory.wf` and the operations are in Sys2Proof/Machine/Ops.lean. -/
abbrev Memory := List Host.Cell

/-- The architectural state (rule R20). -/
structure State where
  /-- `x[0..7]`, the register file; `x[7]` is the stack pointer (rules R21, R23). -/
  x : Vector Byte 8
  /-- `pc`, 16 bits (rule R25). -/
  pc : PcWord
  /-- `FL`: bit 0 Equal, bit 1 Greater, bit 2 Less (rule R28). -/
  fl : Byte
  /-- `Mem[0..MEM_CELLS-1]` (rule R50). -/
  mem : Memory
  /-- `out`, oldest value first (rule R32). -/
  out : List Byte
  /-- `run` (rule R31). -/
  run : Run
  deriving DecidableEq, Repr

/-- The state right after reset (rules R36, R280): `x[7]` = 0xF4, everything else 0 or empty. The zeros of `x[0]` to
`x[6]`, `FL` and memory are the first of the two alternatives of rule R36 (DESIGN CHOICE, log entry 2). `run` is `Running`, so
nothing has been loaded and the next step fetches at 0 (DEDUCED, log entry 4). -/
def State.reset : State where
  x := (Vector.replicate 8 0).set Config.spIndex Config.spReset
  pc := 0
  fl := 0
  mem := []
  out := []
  run := .running

/-- Why the model has no next state. None of the hardware's six faults is here: a fault of the hardware is a next state whose
`run` is `Faulted` (rule R243). Only `step` raises these, never an instruction, and both are safe: a stopped machine stays as
it is (rule R122). -/
inductive Fault where
  /-- Raised by `step` when `run` is `Halted`: there is no step (rule R122). Safe. -/
  | stoppedHalted
  /-- Raised by `step` when `run` is `Faulted`: there is no step (rules R122, R250). Safe. -/
  | stoppedFaulted
  deriving DecidableEq, Repr

/-- Why the model refuses. -/
inductive Refusal where
  /-- Raised by an arm of `exec` whose instruction has no meaning yet; no arm of this model does. Safe. -/
  | notModelled (mnemonic : String)
  deriving DecidableEq, Repr

/-- The outcome of a step or of an instruction of this machine. -/
abbrev Outcome := Host.Outcome State Fault Refusal

end Sys2Proof.Machine
end

