-- ==== Sys2Proof/Machine/Ops.lean ====
section
/-! DEFINITION. The named operations over the state: memory, registers, the stack, output, pc, taking a fault, the fetch, and
the host's load stage and trace. -/

namespace Sys2Proof.Machine

/-! ### Integers and bytes (rule R9) -/

/-- `trunc_8(v)`: v mod 256, the mathematical modulo, for any integer (rule R9). -/
def trunc8 (v : Int) : Byte := BitVec.ofInt 8 v

/-- `zext_16(v)` (rule R9). -/
def zext16 (v : Byte) : PcWord := v.setWidth 16

/-! ### Memory (rules R50 to R54) -/

/-- What a cell that is not listed holds: the reset value 0 (rules R36, R52, R67). -/
def Memory.blank : Byte := 0

/-- The canonical form, for cells at `lo` and above: addresses strictly rise and no listed cell holds the blank value. -/
def Memory.wfFrom (lo : Nat) : Memory → Bool
  | [] => true
  | (a, v) :: rest => decide (lo ≤ a) && (v != Memory.blank) && Memory.wfFrom (a + 1) rest

/-- The canonical form of a memory: two memories with equal cells are equal lists. -/
def Memory.wf (m : Memory) : Bool := Memory.wfFrom 0 m

/-- `MemRead(addr, 1)` for an address in range (rule R52). -/
def Memory.read (m : Memory) (addr : Nat) : Byte :=
  match m with
  | [] => Memory.blank
  | (a, v) :: rest => if addr = a then v else Memory.read rest addr

/-- `MemWrite(addr, 1, v)` for an address in range (rule R53); keeps the canonical form. -/
def Memory.write (m : Memory) (addr : Nat) (v : Byte) : Memory :=
  match m with
  | [] => if v = Memory.blank then [] else [(addr, v)]
  | (a, w) :: rest =>
    if addr < a then
      if v = Memory.blank then (a, w) :: rest else (addr, v) :: (a, w) :: rest
    else if addr = a then
      if v = Memory.blank then rest else (addr, v) :: rest
    else (a, w) :: Memory.write rest addr v

/-- Cells `addr`, `addr + 1`, ... become the given bytes, in order. -/
def Memory.writeBytes (m : Memory) (addr : Nat) : List Byte → Memory
  | [] => m
  | v :: rest => Memory.writeBytes (Memory.write m addr v) (addr + 1) rest

/-- `MEM_CELLS` of this hardware: 65,280 = 0xFF00 cells (rules R6, R50, decision D3). -/
def hardware : Config where
  memCells := 65280

/-- A fetch of the byte at `addr`, or `none` when the address is at or above `MEM_CELLS` and the access is not performed
(rule R54). -/
def Memory.fetchByte (c : Config) (m : Memory) (addr : Nat) : Option Byte :=
  if addr < c.memCells then some (Memory.read m addr) else none

/-! ### Registers (rules R21 to R24) -/

/-- Read of register `r`: no register is hardwired (rule R22). -/
def State.reg (s : State) (r : Reg) : Byte := s.x[r]

/-- Write of register `r`, the stack pointer included (rules R22, R23). -/
def State.setReg (s : State) (r : Reg) (v : Byte) : State := { s with x := s.x.set r v }

/-- `SP`, another name for `x[7]` (rule R8). -/
def State.sp (s : State) : Byte := s.reg Config.spIndex

/-- Write of `SP`. -/
def State.setSp (s : State) (v : Byte) : State := s.setReg Config.spIndex v

/-! ### The program counter (rules R118 to R120) -/

/-- Phase 5 for `spc` = 0: `pc` becomes `A + ir[7:6] + 1`, the amount taken from the opcode byte (rule R118). -/
def State.advance (s : State) (ir : Byte) : State := { s with pc := s.pc + BitVec.ofNat 16 (instrLength ir) }

/-- Phase 5 for `spc` = 1: `pc <- newpc` (rule R119). -/
def State.jumpTo (s : State) (newpc : PcWord) : State := { s with pc := newpc }

/-! ### The stack (rules R180, R182): the only addressing mode for data -/

/-- The address of the data access through the stack pointer, `zext_16(SP)` (rule R180). It is below 256, so it is in range
for every allowed `MEM_CELLS` and the access cannot fault (rule R66). -/
def State.stackAddr (s : State) : Nat := (zext16 s.sp).toNat

/-- `x[7] <- trunc_8(x[7] - 1)`: before a stack write; wraps (rule R182). -/
def State.decSp (s : State) : State := s.setSp (trunc8 ((s.sp.toNat : Int) - 1))

/-- `x[7] <- trunc_8(x[7] + 1)`: after a stack read; wraps (rule R182). -/
def State.incSp (s : State) : State := s.setSp (trunc8 ((s.sp.toNat : Int) + 1))

/-- `MemWrite(zext_16(x[7]), 1, v)`. -/
def State.storeAtSp (s : State) (v : Byte) : State := { s with mem := Memory.write s.mem s.stackAddr v }

/-- `MemRead(zext_16(x[7]), 1)`. -/
def State.loadAtSp (s : State) : Byte := Memory.read s.mem s.stackAddr

/-! ### Output and halt -/

/-- `Out(v)`: append to the output stream (rules R9, R32). -/
def State.emit (s : State) (v : Byte) : State := { s with out := s.out ++ [v] }

/-- `halt`: `run <- Halted` (rules R9, R210). -/
def State.halt (s : State) : State := { s with run := .halted }

/-! ### Taking a fault (rule R243) -/

/-- The cause code of rule R240. -/
def FaultCause.code : FaultCause → Nat
  | .invalidInstruction => 1
  | .unsupportedALUOperation => 2
  | .addressOutOfRange => 3
  | .registerIndexOutOfRange => 4
  | .divideByZero => 5
  | .valueOutOfRange => 6

/-- `raise F(v)`: the instruction is abandoned with nothing written but `run`, which becomes `Faulted` with the report; `pc`
stays at the instruction (rules R124, R243). `fetched` holds the bytes of the instruction fetched so far, the opcode first:
the current values of the latches `ir`, `opa` and `opb`, each of which has a value only if it was fetched (rule R35). There
is no return from a fault (rule R250): only reset leaves it. -/
def State.takeFault (s : State) (cause : FaultCause) (fetched : List Byte) (value : Nat) : State :=
  { s with
    run := .faulted cause
      { pc := s.pc, ir := fetched[0]?, opa := fetched[1]?, opb := fetched[2]?, value := value, regs := s.x } }

/-- The fault raised when phases 1 to 3 find no instruction at `pc` (rule R111): `A` is `pc`, and a missing operand byte is
at the address after the bytes fetched. -/
def State.takeFetchFault (s : State) : DecodeError → State
  | .noOpcode => s.takeFault .addressOutOfRange [] s.pc.toNat
  | .invalidInstruction ir => s.takeFault .invalidInstruction [ir] ir.toNat
  | .unsupportedALUOperation ir => s.takeFault .unsupportedALUOperation [ir] ir.toNat
  | .missingOperand fetched => s.takeFault .addressOutOfRange fetched (s.pc.toNat + fetched.length)

/-! ### Fetching the instruction at pc (rules R111 to R114) -/

/-- Phases 1 to 3: the decoder over the memory cells from `pc` on, through the same `MemRead` as data (rules R64, R112). -/
def State.fetch (c : Config) (s : State) : Except DecodeError Instr :=
  decodeFrom (fun k => Memory.fetchByte c s.mem (s.pc.toNat + k))

/-- The bytes in the cells `pc`, `pc + 1`, `pc + 2`, as many of them as exist. -/
def State.bytesAtPc (c : Config) (s : State) : List Byte :=
  ((List.range (min 3 (c.memCells - s.pc.toNat))).map (fun k => Memory.read s.mem (s.pc.toNat + k)))

/-! ### What the host does outside the execute stage -/

/-- The Loader's contract (rules R221, R222): byte i of the image goes to cell i and nothing else changes; an image longer
than memory is refused (`none`). Applied to `State.reset` it gives the state in which the execute stage begins
(rule R220). -/
def loadImage (c : Config) (image : List Byte) (s : State) : Option State :=
  if image.length ≤ c.memCells then some { s with mem := Memory.writeBytes s.mem 0 image } else none

/-- The reset input: asserted in any state, terminal or not, it puts every piece of state at its reset value (rules R228,
R280). The host asserts it; it is no step of the machine (rule R223, log entry 11). -/
def State.assertReset (_ : State) : State := State.reset

/-- The content of the optional trace (rule R227): a read-only view, no part of the machine. -/
structure TraceRecord where
  /-- The program counter. -/
  pc : PcWord
  /-- The bytes at `pc`, `pc + 1`, `pc + 2`; a cell that does not exist is shown as absent. -/
  bytes : List (Option Byte)
  /-- The eight registers. -/
  regs : Vector Byte 8
  deriving DecidableEq, Repr

/-- The trace of a state (rule R227). -/
def State.trace (c : Config) (s : State) : TraceRecord where
  pc := s.pc
  bytes := [0, 1, 2].map (fun k => Memory.fetchByte c s.mem (s.pc.toNat + k))
  regs := s.x

/-- The state with these bytes in the cells from `pc` on, those cells that exist, and the dispatcher running. -/
def State.placeAtPc (c : Config) (s : State) (bytes : List Byte) : State :=
  { s with
    mem := Memory.writeBytes s.mem s.pc.toNat (bytes.take (c.memCells - s.pc.toNat))
    run := .running }

end Sys2Proof.Machine
end

