-- ==== Sys2Proof/Machine/Flags.lean ====
section
/-! DEFINITION. The flags register FL (spec 10_state.md rules R28 to R30): bit 0 Equal, bit 1 Greater, bit 2 Less, bits 7:3
always 0. CMP is its only writer, JEQ and JNE its only readers (rule R29). -/

namespace Sys2Proof.Machine

/-- `FL` with Equal alone set. -/
def flagE : Byte := 0b00000001

/-- `FL` with Greater alone set. -/
def flagG : Byte := 0b00000010

/-- `FL` with Less alone set. -/
def flagL : Byte := 0b00000100

/-- `FL.E`, bit 0 (rule R8). -/
def State.flE (s : State) : Bool := s.fl.getLsbD 0

/-- `FL.G`, bit 1 (rule R8); no instruction reads it (rule R29). -/
def State.flG (s : State) : Bool := s.fl.getLsbD 1

/-- `FL.L`, bit 2 (rule R8); no instruction reads it (rule R29). -/
def State.flL (s : State) : Bool := s.fl.getLsbD 2

/-- The whole of `FL` as CMP writes it from the unsigned values compared (rule R145). -/
def compareFlags (va vb : Byte) : Byte :=
  if va.toNat = vb.toNat then flagE
  else if va.toNat < vb.toNat then flagL
  else flagG

/-- Write of `FL`, whole. -/
def State.setFl (s : State) (v : Byte) : State := { s with fl := v }

end Sys2Proof.Machine
end

