-- ==== Sys2Proof/Machine/Operands.lean ====
section
/-! DEFINITION. The operand forms: a register named by an operand byte (spec 30_encoding.md rules R84, R89), one or two of
them; the immediate of LDI is its byte as it stands (rule R85) and needs no form. The checks come before any write, the first
operand's before the second's (rules R140, R245, R248). -/

namespace Sys2Proof.Machine

/-- The register index a byte names, if it names one: b itself if b <= 7 (rule R9). -/
def regOf (b : Byte) : Option Reg :=
  if h : b.toNat < 8 then some ⟨b.toNat, h⟩ else none

/-- The operand byte that names a register (rule R84). -/
def regByte (r : Reg) : Byte := BitVec.ofNat 8 r.val

/-- `reg(b)`: go on with the register named by `b`, or raise RegisterIndexOutOfRange(b) (rules R9, R89). `i` is the
instruction being executed, all of whose bytes have been fetched. -/
def withReg (i : Instr) (b : Byte) (s : State) (go : Reg → Outcome) : Outcome :=
  match regOf b with
  | some r => go r
  | none => .next (s.takeFault .registerIndexOutOfRange (encode i) b.toNat)

/-- `a <- reg(opa); b <- reg(opb)`: the first bad index is the one reported (rule R245). -/
def withRegs (i : Instr) (opa opb : Byte) (s : State) (go : Reg → Reg → Outcome) : Outcome :=
  withReg i opa s (fun a => withReg i opb s (fun b => go a b))

end Sys2Proof.Machine
end

