-- ==== Sys2Proof/Machine/Alu.lean ====
section
/-! DEFINITION. The eleven ALU instructions (spec 41_alu.md). Every result is computed on exact integers from the unsigned
operand values and reduced by `trunc8` (rule R140). -/

namespace Sys2Proof.Machine

/-! ### The values -/

/-- `trunc_8(x[a] + x[b])` (rule R141). -/
def aluAdd (va vb : Byte) : Byte := trunc8 ((va.toNat : Int) + vb.toNat)

/-- `trunc_8(x[a] - x[b])` (rule R142). -/
def aluSub (va vb : Byte) : Byte := trunc8 ((va.toNat : Int) - vb.toNat)

/-- `trunc_8(x[a] * x[b])` (rule R143). -/
def aluMul (va vb : Byte) : Byte := trunc8 ((va.toNat : Int) * vb.toNat)

/-- `x[a] mod x[b]`, the remainder of unsigned division, for `x[b]` > 0 (rule R144). -/
def aluMod (va vb : Byte) : Byte := trunc8 ((va.toNat % vb.toNat : Nat) : Int)

/-- `x[a] & x[b]` (rule R146). -/
def aluAnd (va vb : Byte) : Byte := va &&& vb

/-- `x[a] | x[b]` (rule R147). -/
def aluOr (va vb : Byte) : Byte := va ||| vb

/-- `x[a] ^ x[b]` (rule R148). -/
def aluXor (va vb : Byte) : Byte := va ^^^ vb

/-- `trunc_8(~x[a])` = 255 - x[a] (rules R9, R149). -/
def aluNot (va : Byte) : Byte := trunc8 (255 - (va.toNat : Int))

/-- `trunc_8(x[a] << x[b])`: the amount is the whole byte, 8 or more gives 0 (rule R150). -/
def aluShl (va vb : Byte) : Byte := trunc8 ((va.toNat * 2 ^ vb.toNat : Nat) : Int)

/-- `x[a] >> x[b]`: floor of x[a] divided by 2 to the x[b], logical (rule R151). -/
def aluShr (va vb : Byte) : Byte := trunc8 ((va.toNat / 2 ^ vb.toNat : Nat) : Int)

/-! ### The shape of a two-register operation -/

/-- Check both indices, read both values, write the destination, advance; flags, memory and output stay
(rules R140, R153, R154). `mk` builds the instruction from its operand bytes. -/
def aluTwo (mk : Byte → Byte → Instr) (f : Byte → Byte → Byte) (opa opb : Byte) (s : State) : Outcome :=
  withRegs (mk opa opb) opa opb s (fun a b =>
    .next ((s.setReg a (f (s.reg a) (s.reg b))).advance (mk opa opb).ir))

/-! ### The instructions -/

/-- ADD (rule R141). -/
def execAdd (opa opb : Byte) (s : State) : Outcome := aluTwo .add aluAdd opa opb s

/-- SUB (rule R142). -/
def execSub (opa opb : Byte) (s : State) : Outcome := aluTwo .sub aluSub opa opb s

/-- MUL (rule R143). -/
def execMul (opa opb : Byte) (s : State) : Outcome := aluTwo .mul aluMul opa opb s

/-- MOD: DivideByZero(ir) after the index checks and before the write (rules R144, R246). -/
def execMod (opa opb : Byte) (s : State) : Outcome :=
  withRegs (.mod opa opb) opa opb s (fun a b =>
    if s.reg b = 0 then
      .next (s.takeFault .divideByZero (encode (.mod opa opb)) (opcode .mod).toNat)
    else
      .next ((s.setReg a (aluMod (s.reg a) (s.reg b))).advance (opcode .mod)))

/-- CMP: writes `FL` and no register (rule R145). -/
def execCmp (opa opb : Byte) (s : State) : Outcome :=
  withRegs (.cmp opa opb) opa opb s (fun a b =>
    .next ((s.setFl (compareFlags (s.reg a) (s.reg b))).advance (opcode .cmp)))

/-- AND (rule R146). -/
def execAnd (opa opb : Byte) (s : State) : Outcome := aluTwo .and aluAnd opa opb s

/-- OR (rule R147). -/
def execOr (opa opb : Byte) (s : State) : Outcome := aluTwo .or aluOr opa opb s

/-- XOR (rule R148). -/
def execXor (opa opb : Byte) (s : State) : Outcome := aluTwo .xor aluXor opa opb s

/-- NOT: one operand (rules R94, R149). -/
def execNot (opa : Byte) (s : State) : Outcome :=
  withReg (.not opa) opa s (fun a => .next ((s.setReg a (aluNot (s.reg a))).advance (opcode .not)))

/-- SHL (rule R150). -/
def execShl (opa opb : Byte) (s : State) : Outcome := aluTwo .shl aluShl opa opb s

/-- SHR (rule R151). -/
def execShr (opa opb : Byte) (s : State) : Outcome := aluTwo .shr aluShr opa opb s

end Sys2Proof.Machine
end

