-- ==== Sys2Proof/Machine/Control.lean ====
section
/-! DEFINITION. The control transfers CALL, RET, JMP, JEQ, JNE (spec 44_control_transfer.md): every target is an 8-bit value,
zero-extended (rule R190). -/

namespace Sys2Proof.Machine

/-- `A + 2`, where a two-byte instruction that writes `pc` itself continues, as an exact integer: the return address of CALL
and the fall-through of JEQ and JNE (rules R25, R191). -/
def State.afterTwo (s : State) : Nat := s.pc.toNat + 2

/-- CALL: index check, then the return address must fit one cell, then decrement `SP`, store the return address, and jump
to `x[a]`, read after the decrement (rules R191, R198). -/
def execCall (opa : Byte) (s : State) : Outcome :=
  withReg (.call opa) opa s (fun a =>
    if s.afterTwo > 0xFF then
      .next (s.takeFault .valueOutOfRange (encode (.call opa)) s.afterTwo)
    else
      let s1 := s.decSp
      let s2 := s1.storeAtSp (BitVec.ofNat 8 s.afterTwo)
      .next (s2.jumpTo (zext16 (s2.reg a))))

/-- RET: load the return address from `SP`, then increment `SP` (rule R192). -/
def execRet (s : State) : Outcome :=
  let newpc := zext16 s.loadAtSp
  .next (s.incSp.jumpTo newpc)

/-- JMP (rule R193). -/
def execJmp (opa : Byte) (s : State) : Outcome :=
  withReg (.jmp opa) opa s (fun a => .next (s.jumpTo (zext16 (s.reg a))))

/-- JEQ: to `x[a]` if `FL.E` is 1, else to `A + 2` (rules R119, R194). -/
def execJeq (opa : Byte) (s : State) : Outcome :=
  withReg (.jeq opa) opa s (fun a =>
    if s.flE then .next (s.jumpTo (zext16 (s.reg a)))
    else .next (s.jumpTo (BitVec.ofNat 16 s.afterTwo)))

/-- JNE: to `x[a]` if `FL.E` is 0, else to `A + 2` (rules R119, R195). -/
def execJne (opa : Byte) (s : State) : Outcome :=
  withReg (.jne opa) opa s (fun a =>
    if s.flE then .next (s.jumpTo (BitVec.ofNat 16 s.afterTwo))
    else .next (s.jumpTo (zext16 (s.reg a))))

end Sys2Proof.Machine
end

