-- ==== Sys2Proof/Machine/LoadOutput.lean ====
section
/-! DEFINITION. LDI and PRN (spec 42_load_and_output.md). -/

namespace Sys2Proof.Machine

/-- LDI: the immediate is the byte as it stands (rules R85, R170). -/
def execLdi (opa imm : Byte) (s : State) : Outcome :=
  withReg (.ldi opa imm) opa s (fun a => .next ((s.setReg a imm).advance (opcode .ldi)))

/-- PRN: append the register's value to the output stream (rule R171). -/
def execPrn (opa : Byte) (s : State) : Outcome :=
  withReg (.prn opa) opa s (fun a => .next ((s.emit (s.reg a)).advance (opcode .prn)))

end Sys2Proof.Machine
end

