-- ==== Sys2Proof/Machine/Stack.lean ====
section
/-! DEFINITION. PUSH and POP (spec 43_stack.md). A later line of the pseudocode sees the writes of an earlier one, which
matters when the operand is register 7 (rule R9). -/

namespace Sys2Proof.Machine

/-- PUSH: decrement `SP`, then write `x[a]`, read after the decrement, at `SP` (rule R181). -/
def execPush (opa : Byte) (s : State) : Outcome :=
  withReg (.push opa) opa s (fun a =>
    let s1 := s.decSp
    .next ((s1.storeAtSp (s1.reg a)).advance (opcode .push)))

/-- POP: load `x[a]` from `SP`, then increment `SP`, which for register 7 is the value just loaded (rule R183). -/
def execPop (opa : Byte) (s : State) : Outcome :=
  withReg (.pop opa) opa s (fun a =>
    let s1 := s.setReg a s.loadAtSp
    .next (s1.incSp.advance (opcode .pop)))

end Sys2Proof.Machine
end

