-- ==== Sys2Proof/Machine/System.lean ====
section
/-! DEFINITION. HLT, the one system instruction (spec 45_system.md). -/

namespace Sys2Proof.Machine

/-- HLT: `run <- Halted`; phase 5 does not run, so `pc` stays (rules R123, R210). -/
def execHlt (s : State) : Outcome := .next s.halt

end Sys2Proof.Machine
end

