-- ==== Sys2Proof/Machine/Step.lean ====
section
/-! DEFINITION. The step of the dispatcher (spec 40_dispatch.md rules R110, R111, R122), for any memory capacity and for this
hardware's. -/

namespace Sys2Proof.Machine

/-- One step of a machine with `c.memCells` cells. While `run` is `Running`: fetch and decode, then execute, or take the
fault of phases 1 to 3 (rule R111). Otherwise there is no step (rule R122). -/
def stepWith (c : Config) (s : State) : Host.Outcome State Fault Refusal :=
  match s.run with
  | .running =>
    match s.fetch c with
    | .ok i => exec i s
    | .error e => .next (s.takeFetchFault e)
  | .halted => .fault .stoppedHalted
  | .faulted _ _ => .fault .stoppedFaulted

/-- One step of this hardware: 65,280 cells (rule R50). -/
def step (s : State) : Host.Outcome State Fault Refusal := stepWith hardware s

/-- The state with the bytes of an opcode-table word placed at `pc`, so that the next step fetches them: a host's move in
the sense of the load stage (rule R221, log entry 4), no step of the machine. -/
def State.withFetchWord (s : State) (nbits w : Nat) : State := s.placeAtPc hardware (tableWordBytes nbits w)

end Sys2Proof.Machine
end

