-- ==== Sys2Proof/Safety.lean ====
section
/-! DEFINITION. What counts as a sound state and a safe run, in the terms the statements use. -/

namespace Sys2Proof.Machine

/-- No step leaves the state (rules R31, R122). -/
def State.terminal (s : State) : Prop := s.run ≠ .running

/-- The state is at the error exit (rule R31). -/
def State.isFaulted (s : State) : Prop := ∃ cause info, s.run = .faulted cause info

/-- The latches in a report are the bytes at `pc`, `pc + 1` and `pc + 2`, where they have a value (rule R35). -/
def LatchesSound (s : State) (info : FaultInfo) : Prop :=
  (∀ b, info.ir = some b → Memory.read s.mem s.pc.toNat = b) ∧
  (∀ b, info.opa = some b → Memory.read s.mem (s.pc.toNat + 1) = b) ∧
  (∀ b, info.opb = some b → Memory.read s.mem (s.pc.toNat + 2) = b)

/-- The report of a fault says what the state shows and what rule R240 says of its cause: `info.pc` and the registers are
those of the frozen state (rule R243), the latches are the instruction's bytes in memory (rule R35, log entry 9), and they and
`info.value` fit the cause. -/
def ReportSound (c : Config) (s : State) (cause : FaultCause) (info : FaultInfo) : Prop :=
  info.pc = s.pc ∧ info.regs = s.x ∧ LatchesSound s info ∧
  match cause with
  | .invalidInstruction => ∃ ir, info.ir = some ir ∧ info.value = ir.toNat ∧ aluBit ir = false ∧
    info.opa = none ∧ info.opb = none
  | .unsupportedALUOperation => ∃ ir, info.ir = some ir ∧ info.value = ir.toNat ∧ aluBit ir = true ∧
    info.opa = none ∧ info.opb = none
  | .addressOutOfRange => c.memCells ≤ info.value ∧ info.value ≤ s.pc.toNat + 2 ∧ info.opb = none
  | .registerIndexOutOfRange => (∃ ir, info.ir = some ir) ∧ 7 < info.value ∧ info.value ≤ 255 ∧
    ∃ b, (info.opa = some b ∨ info.opb = some b) ∧ info.value = b.toNat
  | .divideByZero => info.ir = some 0xA4 ∧ info.value = 0xA4 ∧
    ∃ a b : Reg, info.opa = some (regByte a) ∧ info.opb = some (regByte b)
  | .valueOutOfRange => info.ir = some 0x50 ∧ info.value = s.pc.toNat + 2 ∧ 255 < info.value ∧
    info.opb = none ∧ ∃ a : Reg, info.opa = some (regByte a)

/-- The invariant of the machine: what holds in every state a run can reach and every step keeps. -/
structure State.Sound (c : Config) (s : State) : Prop where
  /-- Memory is in its canonical form: the model's own convention (log entry 3). -/
  memCanonical : Memory.wf s.mem = true
  /-- Only cells that exist are listed (rule R50). -/
  memInside : ∀ cell ∈ s.mem, cell.1 < c.memCells
  /-- `FL` is one of 0, 1, 2, 4 (rule R30), so bits 7:3 are 0 (rule R28). -/
  flLegal : s.fl = 0 ∨ s.fl = 1 ∨ s.fl = 2 ∨ s.fl = 4
  /-- `pc` is at most one past the last cell (rules R27, R120). -/
  pcInside : s.pc.toNat ≤ c.memCells
  /-- At the error exit, the report is sound. -/
  report : ∀ cause info, s.run = .faulted cause info → ReportSound c s cause info

/-- `t` is reached from `s` by some number of steps. -/
inductive Reaches (c : Config) (s : State) : State → Prop where
  | start : Reaches c s s
  | step {t u : State} (h : Reaches c s t) (hs : stepWith c t = .next u) : Reaches c s u

/-- A run is safe when no state it reaches is at the error exit. -/
def SafeRun (c : Config) (s : State) : Prop := ∀ t, Reaches c s t → ¬ t.isFaulted

end Sys2Proof.Machine
end

