-- ==== Sys2Proof/Certificates/Slice0/Obligations.lean ====
section
/-! DEFINITION. The statements for the provers. Each says which rule of the spec it formalises, or, where the spec marks the
rule as its own decision or derivation, that it rests on that. A register operand is written as the byte that names a register
(`regByte r`, any of the eight), and the bytes above 7, which name none, have a clause of their own, so no form is shut
out. -/

namespace Sys2Proof.Claims

open Sys2Proof.Machine

/-! ### The vocabulary of the statements -/

/-- Every cell of memory reads as before. -/
def SameMem (s t : State) : Prop := ∀ a, Memory.read t.mem a = Memory.read s.mem a

/-- Every cell of memory other than `addr` reads as before. -/
def SameMemBut (s t : State) (addr : Nat) : Prop := ∀ a, a ≠ addr → Memory.read t.mem a = Memory.read s.mem a

/-- Every register not listed holds what it held. -/
def SameRegsBut (s t : State) (ks : List Reg) : Prop := ∀ k, k ∉ ks → t.reg k = s.reg k

/-- Executing `i` takes the fault `cause` with the given `info.value`, and nothing but `run` is written (rule R243). The
report holds the latches, which are the instruction's bytes (rule R35, log entry 9). -/
def TakesFault (i : Instr) (s : State) (cause : FaultCause) (value : Nat) : Prop :=
  exec i s = .next { s with
    run := .faulted cause
      { pc := s.pc, ir := (encode i)[0]?, opa := (encode i)[1]?, opb := (encode i)[2]?, value := value, regs := s.x } }

/-- What rules R141 to R143 and R146 to R151 say of an instruction with two register operands and one result: its bytes, its
faults, its result `f` of the two unsigned values, and that registers other than A, `FL`, memory, `out` and `run` stay and
`pc` becomes `A + 3`. -/
def TwoRegisterRule (mk : Byte → Byte → Instr) (op : Byte) (f : Nat → Nat → Nat) : Prop :=
  (∀ a b, encode (mk a b) = [op, a, b]) ∧
  (∀ a b s, 7 < a.toNat → TakesFault (mk a b) s .registerIndexOutOfRange a.toNat) ∧
  (∀ (ra : Reg) b s, 7 < b.toNat → TakesFault (mk (regByte ra) b) s .registerIndexOutOfRange b.toNat) ∧
  (∀ (ra rb : Reg) s, ∃ t, exec (mk (regByte ra) (regByte rb)) s = .next t ∧
    (t.reg ra).toNat = f (s.reg ra).toNat (s.reg rb).toNat ∧ SameRegsBut s t [ra] ∧
    t.fl = s.fl ∧ t.pc = s.pc + 3 ∧ SameMem s t ∧ t.out = s.out ∧ t.run = s.run)

/-- The bytes of a one-register instruction, and its fault on a byte above 7. -/
def OneRegisterForm (mk : Byte → Instr) (op : Byte) : Prop :=
  (∀ a, encode (mk a) = [op, a]) ∧
  (∀ a s, 7 < a.toNat → TakesFault (mk a) s .registerIndexOutOfRange a.toNat)

/-- The eleven ALU opcodes, written out from rule R87 (values from general knowledge, log entry 1). -/
def aluOpcodes : List Byte := [0x69, 0xA0, 0xA1, 0xA2, 0xA4, 0xA7, 0xA8, 0xAA, 0xAB, 0xAC, 0xAD]

/-- The ten Instruction Table opcodes, written out from rule R87 (all but HLT, LDI and PRN from general knowledge, log
entry 1). -/
def tableOpcodes : List Byte := [0x01, 0x11, 0x45, 0x46, 0x47, 0x50, 0x54, 0x55, 0x56, 0x82]

/-- The next fetch of `u` reads `b` as its opcode byte, and a running step of `u` shows it: a recognised opcode executes as
the instruction fetched, whose first byte is `b`, or lacks an operand byte at the end of memory (rule R114), and any other
byte raises the fault of rules R90 and R91; where there is a report, it shows `b` and the operand byte fetched, if there is
one (rule R35, log entry 9). -/
def FetchesOpcode (c : Config) (u : State) (b : Byte) : Prop :=
  (u.bytesAtPc c).head? = some b ∧
  (∀ i, u.fetch c = .ok i → (encode i).head? = some b) ∧
  (u.run = .running →
    (b ∈ tableOpcodes ∨ b ∈ aluOpcodes →
      (∃ i, u.fetch c = .ok i ∧ stepWith c u = exec i u) ∨
      (c.memCells ≤ u.pc.toNat + b.toNat / 64 ∧
        stepWith c u = .next
          { u with
            run := .faulted .addressOutOfRange
              { pc := u.pc
                ir := some b
                opa := if u.pc.toNat + 1 < c.memCells then some (Memory.read u.mem (u.pc.toNat + 1)) else none
                opb := none
                value := c.memCells
                regs := u.x } })) ∧
    (b ∉ tableOpcodes → b ∉ aluOpcodes →
      stepWith c u = .next
        { u with
          run := .faulted (if b.toNat / 32 % 2 = 1 then .unsupportedALUOperation else .invalidInstruction)
            ⟨u.pc, some b, none, none, b.toNat, u.x⟩ }))

/-- The register a byte of value at most 7 names, by its low three bits; used only where the byte is at most 7. -/
def low3 (b : Byte) : Reg := ⟨b.toNat % 8, Nat.mod_lt _ (by omega)⟩

/-- The order of checks of rule R248 written out over the bytes at `pc`, with the opcode bytes of the table as numerals and
independent of the model's decoder and meanings: the fault a step must report, with `info.value`, or none. -/
def firstFault (c : Config) (s : State) : Option (FaultCause × Nat) :=
  let A := s.pc.toNat
  let ir := Memory.read s.mem A
  let opa := Memory.read s.mem (A + 1)
  let opb := Memory.read s.mem (A + 2)
  let cnt := ir.toNat / 64
  if c.memCells ≤ A then some (.addressOutOfRange, A)
  else if ir.getLsbD 5 = true ∧ ir ∉ aluOpcodes then some (.unsupportedALUOperation, ir.toNat)
  else if ir.getLsbD 5 = false ∧ ir ∉ tableOpcodes then some (.invalidInstruction, ir.toNat)
  else if 1 ≤ cnt ∧ c.memCells ≤ A + 1 then some (.addressOutOfRange, A + 1)
  else if cnt = 2 ∧ c.memCells ≤ A + 2 then some (.addressOutOfRange, A + 2)
  else if 1 ≤ cnt ∧ 7 < opa.toNat then some (.registerIndexOutOfRange, opa.toNat)
  else if cnt = 2 ∧ ir ≠ 0x82 ∧ 7 < opb.toNat then some (.registerIndexOutOfRange, opb.toNat)
  else if ir = 0xA4 ∧ s.reg (low3 opb) = 0 then some (.divideByZero, 0xA4)
  else if ir = 0x50 ∧ 0xFF < A + 2 then some (.valueOutOfRange, A + 2)
  else none

/-- How many operand bytes phase 3 fetches at `pc`: none if there is no opcode byte or it is not recognised, else as many of
the `ir[7:6]` the opcode asks for as there are cells (rules R111, R114). The latches `opa` and `opb` have a value exactly if
their byte is among them (rule R35). -/
def operandsFetched (c : Config) (s : State) : Nat :=
  let ir := Memory.read s.mem s.pc.toNat
  if ir ∈ tableOpcodes ∨ ir ∈ aluOpcodes then min (ir.toNat / 64) (c.memCells - s.pc.toNat - 1) else 0

/-- The table of rule R121 written out over the bytes at `pc`: the `pc` after an instruction that does not fault. -/
def nextPc (s : State) : Nat :=
  let A := s.pc.toNat
  let ir := Memory.read s.mem A
  let opa := low3 (Memory.read s.mem (A + 1))
  let target := (s.reg opa).toNat
  let equal := s.fl.toNat % 2 = 1
  if ir = 0x01 then A
  else if ir = 0x50 then (if opa = 7 then ((s.reg 7).toNat + 255) % 256 else target)
  else if ir = 0x11 then (Memory.read s.mem (s.reg 7).toNat).toNat
  else if ir = 0x54 then target
  else if ir = 0x55 then (if equal then target else A + 2)
  else if ir = 0x56 then (if equal then A + 2 else target)
  else A + ir.toNat / 64 + 1

/-- The operand byte that names the register an instruction writes by name (the table of rule R22). -/
def namedDestination : Instr → Option Byte
  | .hlt => none
  | .ret => none
  | .push _ => none
  | .pop a => some a
  | .prn _ => none
  | .call _ => none
  | .jmp _ => none
  | .jeq _ => none
  | .jne _ => none
  | .not a => some a
  | .ldi a _ => some a
  | .add a _ => some a
  | .sub a _ => some a
  | .mul a _ => some a
  | .mod a _ => some a
  | .cmp _ _ => none
  | .and a _ => some a
  | .or a _ => some a
  | .xor a _ => some a
  | .shl a _ => some a
  | .shr a _ => some a

/-- PUSH, POP, CALL and RET read and write register 7 without naming it (the table of rule R22). -/
def usesStackPointer : Instr → Bool
  | .push _ => true
  | .pop _ => true
  | .call _ => true
  | .ret => true
  | _ => false

/-- PUSH and CALL are the instructions that write memory (the table of rule R55). -/
def storesToStack : Instr → Bool
  | .push _ => true
  | .call _ => true
  | _ => false

/-- POP and RET are the instructions that read data from memory (the table of rule R55). -/
def loadsFromStack : Instr → Bool
  | .pop _ => true
  | .ret => true
  | _ => false

end Sys2Proof.Claims

open Sys2Proof Sys2Proof.Machine Sys2Proof.Claims

/-! ### ALU instructions -/

/-- Rule R141: ADD writes the sum modulo 256 to A. The latches `opa` and `opb` in the reports of its fault clauses are rule
R35 as log entry 9 (DEDUCED) reads it. -/
def Obligations.AddWritesSumModulo256 : Prop :=
  TwoRegisterRule .add 0xA0 (fun va vb => (va + vb) % 256)

/-- Rule R142: SUB writes the difference modulo 256 to A: 256 + x[a] - x[b] when it would be negative. The latches `opa` and
`opb` in the reports of its fault clauses are rule R35 as log entry 9 (DEDUCED) reads it. -/
def Obligations.SubWritesDifferenceModulo256 : Prop :=
  TwoRegisterRule .sub 0xA1 (fun va vb => if va < vb then 256 + va - vb else va - vb)

/-- Rule R143: MUL writes the low byte of the product to A. The latches `opa` and `opb` in the reports of its fault clauses
are rule R35 as log entry 9 (DEDUCED) reads it. -/
def Obligations.MulWritesProductModulo256 : Prop :=
  TwoRegisterRule .mul 0xA2 (fun va vb => va * vb % 256)

/-- Rule R144, which the spec marks as its decision D8: MOD writes the unsigned remainder, and faults with nothing written
when the divisor register holds 0. The latches `opa` and `opb` in the reports of its fault clauses are rule R35 as log entry
9 (DEDUCED) reads it. -/
def Obligations.ModWritesRemainderOrFaultsOnZero : Prop :=
  (∀ a b, encode (.mod a b) = [0xA4, a, b]) ∧
  (∀ a b s, 7 < a.toNat → TakesFault (.mod a b) s .registerIndexOutOfRange a.toNat) ∧
  (∀ (ra : Reg) b s, 7 < b.toNat → TakesFault (.mod (regByte ra) b) s .registerIndexOutOfRange b.toNat) ∧
  (∀ (ra rb : Reg) s, s.reg rb = 0 → TakesFault (.mod (regByte ra) (regByte rb)) s .divideByZero 0xA4) ∧
  (∀ (ra rb : Reg) s, s.reg rb ≠ 0 → ∃ t, exec (.mod (regByte ra) (regByte rb)) s = .next t ∧
    (t.reg ra).toNat = (s.reg ra).toNat - (s.reg rb).toNat * ((s.reg ra).toNat / (s.reg rb).toNat) ∧
    (t.reg ra).toNat < (s.reg rb).toNat ∧ SameRegsBut s t [ra] ∧
    t.fl = s.fl ∧ t.pc = s.pc + 3 ∧ SameMem s t ∧ t.out = s.out ∧ t.run = s.run)

/-- Rule R145: CMP overwrites the whole of `FL` with exactly one of 1 (equal), 4 (less), 2 (greater), by the unsigned values,
and writes no register. The latches `opa` and `opb` in the reports of its fault clauses are rule R35 as log entry 9 (DEDUCED)
reads it. -/
def Obligations.CmpSetsExactlyOneFlag : Prop :=
  (∀ a b, encode (.cmp a b) = [0xA7, a, b]) ∧
  (∀ a b s, 7 < a.toNat → TakesFault (.cmp a b) s .registerIndexOutOfRange a.toNat) ∧
  (∀ (ra : Reg) b s, 7 < b.toNat → TakesFault (.cmp (regByte ra) b) s .registerIndexOutOfRange b.toNat) ∧
  (∀ (ra rb : Reg) s, ∃ t, exec (.cmp (regByte ra) (regByte rb)) s = .next t ∧
    (s.reg ra = s.reg rb → t.fl = 0b00000001) ∧
    ((s.reg ra).toNat < (s.reg rb).toNat → t.fl = 0b00000100) ∧
    ((s.reg rb).toNat < (s.reg ra).toNat → t.fl = 0b00000010) ∧
    SameRegsBut s t [] ∧ t.pc = s.pc + 3 ∧ SameMem s t ∧ t.out = s.out ∧ t.run = s.run)

/-- Rule R146: AND. The latches `opa` and `opb` in the reports of its fault clauses are rule R35 as log entry 9 (DEDUCED)
reads it. -/
def Obligations.AndWritesBitwiseAnd : Prop :=
  TwoRegisterRule .and 0xA8 (fun va vb => va &&& vb)

/-- Rule R147: OR. The latches `opa` and `opb` in the reports of its fault clauses are rule R35 as log entry 9 (DEDUCED)
reads it. -/
def Obligations.OrWritesBitwiseOr : Prop :=
  TwoRegisterRule .or 0xAA (fun va vb => va ||| vb)

/-- Rule R148: XOR. The latches `opa` and `opb` in the reports of its fault clauses are rule R35 as log entry 9 (DEDUCED)
reads it. -/
def Obligations.XorWritesBitwiseXor : Prop :=
  TwoRegisterRule .xor 0xAB (fun va vb => va ^^^ vb)

/-- Rule R149: NOT writes 255 - x[a], with one operand byte, and `pc` becomes `A + 2`. The latches `opa` and `opb` in the
reports of its fault clauses are rule R35 as log entry 9 (DEDUCED) reads it. -/
def Obligations.NotWritesComplement : Prop :=
  OneRegisterForm .not 0x69 ∧
  (∀ (ra : Reg) s, ∃ t, exec (.not (regByte ra)) s = .next t ∧
    (t.reg ra).toNat = 255 - (s.reg ra).toNat ∧ t.reg ra = s.reg ra ^^^ 0xFF ∧ SameRegsBut s t [ra] ∧
    t.fl = s.fl ∧ t.pc = s.pc + 2 ∧ SameMem s t ∧ t.out = s.out ∧ t.run = s.run)

/-- Rule R150, whose reduction modulo 256 the spec marks as its decision D7: SHL by the whole value of B; 8 or more gives 0.
The latches `opa` and `opb` in the reports of its fault clauses are rule R35 as log entry 9 (DEDUCED) reads it. -/
def Obligations.ShlShiftsLeftByWholeByte : Prop :=
  TwoRegisterRule .shl 0xAC (fun va vb => if 8 ≤ vb then 0 else va * 2 ^ vb % 256)

/-- Rule R151, which the spec marks with its decision D7: SHR is logical, by the whole value of B; 8 or more gives 0. The
latches `opa` and `opb` in the reports of its fault clauses are rule R35 as log entry 9 (DEDUCED) reads it. -/
def Obligations.ShrShiftsRightLogically : Prop :=
  TwoRegisterRule .shr 0xAD (fun va vb => if 8 ≤ vb then 0 else va / 2 ^ vb)

/-! ### LDI, PRN, HLT -/

/-- Rule R170: LDI writes its second operand byte to A; only the first operand is an index. The latches `opa` and `opb` in
the reports of its fault clauses are rule R35 as log entry 9 (DEDUCED) reads it. -/
def Obligations.LdiLoadsImmediate : Prop :=
  (∀ a imm, encode (.ldi a imm) = [0x82, a, imm]) ∧
  (∀ a imm s, 7 < a.toNat → TakesFault (.ldi a imm) s .registerIndexOutOfRange a.toNat) ∧
  (∀ (ra : Reg) imm s, ∃ t, exec (.ldi (regByte ra) imm) s = .next t ∧
    t.reg ra = imm ∧ SameRegsBut s t [ra] ∧
    t.fl = s.fl ∧ t.pc = s.pc + 3 ∧ SameMem s t ∧ t.out = s.out ∧ t.run = s.run)

/-- Rule R171: PRN appends exactly the value of A to the output, and no other instruction emits. The latches `opa` and `opb`
in the reports of its fault clauses are rule R35 as log entry 9 (DEDUCED) reads it. -/
def Obligations.PrnEmitsRegister : Prop :=
  OneRegisterForm .prn 0x47 ∧
  (∀ (ra : Reg) s, ∃ t, exec (.prn (regByte ra)) s = .next t ∧
    t.out = s.out ++ [s.reg ra] ∧ SameRegsBut s t [] ∧
    t.fl = s.fl ∧ t.pc = s.pc + 2 ∧ SameMem s t ∧ t.run = s.run) ∧
  (∀ i s t, exec i s = .next t → t.out ≠ s.out → ∃ ra : Reg, i = .prn (regByte ra))

/-- Rule R210: HLT halts with `pc` and everything else as it was, there is no step after it, and no other instruction halts.
The form of having no step is log entry 6 (DEDUCED), which reads rule R122 (decision D15). -/
def Obligations.HltHaltsWithStateIntact : Prop :=
  encode .hlt = [0x01] ∧
  (∀ s, ∃ t, exec .hlt s = .next t ∧ t.run = .halted ∧ SameRegsBut s t [] ∧ t.pc = s.pc ∧
    t.fl = s.fl ∧ SameMem s t ∧ t.out = s.out ∧ ∀ c, stepWith c t = .fault .stoppedHalted) ∧
  (∀ c s t, stepWith c s = .next t → t.run = .halted → s.fetch c = .ok .hlt)

/-! ### The stack -/

/-- Rule R181: PUSH decrements `SP` modulo 256 first, then stores the source register, read after the decrement, at the new
`SP`; no other cell and no register but `x[7]` changes. The cell is read back in a canonical memory, which every reachable
state has (StepKeepsStateSound). The latches `opa` and `opb` in the reports of its fault clauses are rule R35 as log entry 9
(DEDUCED) reads it. The canonical form of memory is log entry 3 (DESIGN CHOICE). -/
def Obligations.PushStoresBelowStackPointer : Prop :=
  OneRegisterForm .push 0x45 ∧
  (∀ s : State, s.decSp.stackAddr = ((s.reg 7).toNat + 255) % 256) ∧
  (∀ (ra : Reg) s, ∃ t, exec (.push (regByte ra)) s = .next t ∧
    (t.reg 7).toNat = ((s.reg 7).toNat + 255) % 256 ∧ SameRegsBut s t [7] ∧
    (∀ addr, addr = s.decSp.stackAddr →
      SameMemBut s t addr ∧ (Memory.wf s.mem = true → Memory.read t.mem addr = t.reg ra)) ∧
    t.fl = s.fl ∧ t.pc = s.pc + 2 ∧ t.out = s.out ∧ t.run = s.run)

/-- Rule R183: POP loads the cell at `SP` into A first and then increments `SP` modulo 256, which for register 7 is the value
just loaded; the cell keeps its value. The latches `opa` and `opb` in the reports of its fault clauses are rule R35 as log
entry 9 (DEDUCED) reads it. -/
def Obligations.PopLoadsThenIncrements : Prop :=
  OneRegisterForm .pop 0x46 ∧
  (∀ s : State, s.stackAddr = (s.reg 7).toNat) ∧
  (∀ (ra : Reg) s, ∃ t, exec (.pop (regByte ra)) s = .next t ∧
    (ra ≠ 7 → t.reg ra = Memory.read s.mem s.stackAddr ∧ (t.reg 7).toNat = ((s.reg 7).toNat + 1) % 256) ∧
    (ra = 7 → (t.reg 7).toNat = ((Memory.read s.mem s.stackAddr).toNat + 1) % 256) ∧
    SameRegsBut s t [ra, 7] ∧ SameMem s t ∧
    t.fl = s.fl ∧ t.pc = s.pc + 2 ∧ t.out = s.out ∧ t.run = s.run)

/-- The matched pair of rule R184, which the spec marks as derived: PUSH then POP on the same register index restores every
register, `SP` included, for all eight indices and every `SP`. The canonical form of memory is log entry 3 (DESIGN CHOICE). -/
def Obligations.PushThenPopRestoresRegisters : Prop :=
  ∀ (ra : Reg) (s : State), Memory.wf s.mem = true →
    ∃ t u, exec (.push (regByte ra)) s = .next t ∧ exec (.pop (regByte ra)) t = .next u ∧
      SameRegsBut s u [] ∧ SameMemBut s u s.decSp.stackAddr ∧ u.pc = s.pc + 4 ∧
      u.fl = s.fl ∧ u.out = s.out ∧ u.run = s.run

/-! ### Control transfers -/

/-- Rule R191: CALL stores `A + 2` in one cell below `SP` and jumps to the register's value, read after the decrement; it
faults with nothing written when `A + 2` does not fit one cell. The latches `opa` and `opb` in the reports of its fault
clauses are rule R35 as log entry 9 (DEDUCED) reads it. The canonical form of memory is log entry 3 (DESIGN CHOICE). -/
def Obligations.CallPushesReturnAddressAndJumps : Prop :=
  OneRegisterForm .call 0x50 ∧
  (∀ (ra : Reg) s, 0xFF < s.pc.toNat + 2 → TakesFault (.call (regByte ra)) s .valueOutOfRange (s.pc.toNat + 2)) ∧
  (∀ s : State, s.decSp.stackAddr = ((s.reg 7).toNat + 255) % 256) ∧
  (∀ (ra : Reg) s, s.pc.toNat + 2 ≤ 0xFF → ∃ t, exec (.call (regByte ra)) s = .next t ∧
    (t.reg 7).toNat = ((s.reg 7).toNat + 255) % 256 ∧ SameRegsBut s t [7] ∧
    (∀ addr, addr = s.decSp.stackAddr →
      SameMemBut s t addr ∧ (Memory.wf s.mem = true → (Memory.read t.mem addr).toNat = s.pc.toNat + 2)) ∧
    t.pc.toNat = (t.reg ra).toNat ∧
    t.fl = s.fl ∧ t.out = s.out ∧ t.run = s.run)

/-- Rule R192: RET jumps to the byte at `SP`, read before the increment, and increments `SP` modulo 256. -/
def Obligations.RetJumpsToByteAtStackPointer : Prop :=
  encode .ret = [0x11] ∧
  (∀ s, ∃ t, exec .ret s = .next t ∧
    t.pc.toNat = (Memory.read s.mem (s.reg 7).toNat).toNat ∧
    (t.reg 7).toNat = ((s.reg 7).toNat + 1) % 256 ∧ SameRegsBut s t [7] ∧ SameMem s t ∧
    t.fl = s.fl ∧ t.out = s.out ∧ t.run = s.run)

/-- Rule R193: JMP. The latches `opa` and `opb` in the reports of its fault clauses are rule R35 as log entry 9 (DEDUCED)
reads it. -/
def Obligations.JmpJumpsToRegister : Prop :=
  OneRegisterForm .jmp 0x54 ∧
  (∀ (ra : Reg) s, ∃ t, exec (.jmp (regByte ra)) s = .next t ∧
    t.pc.toNat = (s.reg ra).toNat ∧ SameRegsBut s t [] ∧ SameMem s t ∧
    t.fl = s.fl ∧ t.out = s.out ∧ t.run = s.run)

/-- Rule R194: JEQ jumps exactly when bit 0 of `FL` is 1 and else goes on at `A + 2`; the other flags do not matter. The
latches `opa` and `opb` in the reports of its fault clauses are rule R35 as log entry 9 (DEDUCED) reads it. -/
def Obligations.JeqBranchesExactlyWhenEqual : Prop :=
  OneRegisterForm .jeq 0x55 ∧
  (∀ (ra : Reg) s, ∃ t, exec (.jeq (regByte ra)) s = .next t ∧
    (s.fl.toNat % 2 = 1 → t.pc.toNat = (s.reg ra).toNat) ∧
    (s.fl.toNat % 2 = 0 → t.pc = s.pc + 2) ∧
    SameRegsBut s t [] ∧ SameMem s t ∧ t.fl = s.fl ∧ t.out = s.out ∧ t.run = s.run)

/-- Rule R195: JNE jumps exactly when bit 0 of `FL` is 0 and else goes on at `A + 2`. The latches `opa` and `opb` in the
reports of its fault clauses are rule R35 as log entry 9 (DEDUCED) reads it. -/
def Obligations.JneBranchesExactlyWhenNotEqual : Prop :=
  OneRegisterForm .jne 0x56 ∧
  (∀ (ra : Reg) s, ∃ t, exec (.jne (regByte ra)) s = .next t ∧
    (s.fl.toNat % 2 = 0 → t.pc.toNat = (s.reg ra).toNat) ∧
    (s.fl.toNat % 2 = 1 → t.pc = s.pc + 2) ∧
    SameRegsBut s t [] ∧ SameMem s t ∧ t.fl = s.fl ∧ t.out = s.out ∧ t.run = s.run)

/-- The call and return pair of rule R196, which the spec marks as derived: if the subroutine ends (at `u`) with `SP` and the
cell it points to as CALL left them, RET continues just after the CALL and `SP` is restored. The canonical form of memory is
log entry 3 (DESIGN CHOICE). -/
def Obligations.CallThenRetReturnsAfterCall : Prop :=
  ∀ (ra : Reg) (s : State), Memory.wf s.mem = true → s.pc.toNat + 2 ≤ 0xFF →
    ∃ t, exec (.call (regByte ra)) s = .next t ∧
      ∀ u : State, u.reg 7 = t.reg 7 →
        Memory.read u.mem (t.reg 7).toNat = Memory.read t.mem (t.reg 7).toNat →
        ∃ v, exec .ret u = .next v ∧ v.pc.toNat = s.pc.toNat + 2 ∧ v.reg 7 = s.reg 7

/-! ### Encoding -/

/-- Decoding the bytes of any instruction, whatever follows them, gives it back with every operand byte. The opcode values
are general knowledge (UNVERIFIED, log entry 1). -/
def Obligations.DecodeReadsBackEveryEncodedInstruction : Prop :=
  ∀ (i : Instr) (rest : List Byte), decode (encode i ++ rest) = .ok (i, rest)

/-- The other direction: bytes that decode to an instruction are that instruction's encoding and the rest. The opcode values
are general knowledge (UNVERIFIED, log entry 1). -/
def Obligations.DecodedBytesAreTheEncoding : Prop :=
  ∀ (bytes : List Byte) (i : Instr) (rest : List Byte), decode bytes = .ok (i, rest) → bytes = encode i ++ rest

/-- A few words written out from the encodings of rule R86 decode to the instructions they stand for (the first scenario of
the source among them; the other opcode values are general knowledge, log entry 1). -/
def Obligations.SampleWordsDecodeAsWritten : Prop :=
  decode [0b10000010, 0b00000000, 0b00001000] = .ok (.ldi 0 8, []) ∧
  decode [0b01000111, 0b00000000] = .ok (.prn 0, []) ∧
  decode [0b00000001] = .ok (.hlt, []) ∧
  decode [0b10100000, 0b00000100, 0b00000101] = .ok (.add 4 5, []) ∧
  decode [0b01000101, 0b00000111] = .ok (.push 7, []) ∧
  decode [0b01010000, 0b00000001] = .ok (.call 1, []) ∧
  decode [0b01101001, 0b00000011, 0b10100111] = .ok (.not 3, [0b10100111])

/-- The field consistency of rule R88, which the spec marks as derived: `cnt` is the operand count of the source's tables (NOT
with one operand, rule R94), `spc` is 1 exactly for CALL, RET, JMP, JEQ and JNE, `alu` is 1 exactly for the eleven ALU
operations, and no two rows share an opcode. The values and two of the field positions are general knowledge (log entry
1). -/
def Obligations.OpcodeFieldsAgreeWithTable : Prop :=
  (∀ m : Mnemonic, spcBit (opcode m) = true ↔ m ∈ [.call, .ret, .jmp, .jeq, .jne]) ∧
  (∀ m : Mnemonic, aluBit (opcode m) = true ↔
    m ∈ [.add, .sub, .mul, .mod, .cmp, .and, .or, .xor, .not, .shl, .shr]) ∧
  (∀ m m' : Mnemonic, opcode m = opcode m' → m = m') ∧
  (∀ m : Mnemonic, cntField (opcode m) =
    if m ∈ [.hlt, .ret] then 0
    else if m ∈ [.push, .pop, .prn, .call, .jmp, .jeq, .jne, .not] then 1
    else 2)

/-- Rules R90 and R91: every opcode byte that is none of the ten with bit 5 clear, or none of the eleven with bit 5 set, is
illegal; there are 118 and 117 of them; executing one raises InvalidInstruction or UnsupportedALUOperation, whatever bytes
follow and whether or not they exist, with the report and no further step. Which opcodes are recognised is log entry 1. That
the reports show no operand byte is rule R35 as log entry 9 (DEDUCED) reads it. The form of having no step is log entry 6
(DEDUCED), which reads rules R122 and R250. -/
def Obligations.UnrecognisedOpcodesFault : Prop :=
  ((List.range 256).filter (fun n => decide (n / 32 % 2 = 0 ∧ BitVec.ofNat 8 n ∉ tableOpcodes))).length = 118 ∧
  ((List.range 256).filter (fun n => decide (n / 32 % 2 = 1 ∧ BitVec.ofNat 8 n ∉ aluOpcodes))).length = 117 ∧
  ∀ (c : Config) (s : State) (ir : Byte), s.run = .running → s.pc.toNat < c.memCells →
    Memory.read s.mem s.pc.toNat = ir →
    (ir.toNat / 32 % 2 = 0 → ir ∉ tableOpcodes →
      ∃ t, t = { s with run := .faulted .invalidInstruction ⟨s.pc, some ir, none, none, ir.toNat, s.x⟩ } ∧
        stepWith c s = .next t ∧ stepWith c t = .fault .stoppedFaulted) ∧
    (ir.toNat / 32 % 2 = 1 → ir ∉ aluOpcodes →
      ∃ t, t = { s with run := .faulted .unsupportedALUOperation ⟨s.pc, some ir, none, none, ir.toNat, s.x⟩ } ∧
        stepWith c s = .next t ∧ stepWith c t = .fault .stoppedFaulted)

/-! ### The step -/

/-- A running step runs the instruction that the bytes at `pc` decode to: nothing is added around it, for any capacity and
for this hardware's. The capacity as an argument is log entry 7 (DEDUCED). -/
def Obligations.StepRunsDecodedInstruction : Prop :=
  (∀ (c : Config) (s : State) (i : Instr) (rest : List Byte), s.run = .running →
    decode (s.bytesAtPc c) = .ok (i, rest) → stepWith c s = exec i s) ∧
  (∀ (s : State) (i : Instr) (rest : List Byte), s.run = .running →
    decode (s.bytesAtPc hardware) = .ok (i, rest) → step s = exec i s)

/-- An instruction that lies whole inside memory executes, its last byte in the last cell included, and one whose operand
byte does not exist faults at the first missing address (strict operand fetch: rule R114, the spec's decision D6; faulting is
decision D5). The first operand byte in the report is rule R35 as log entry 9 (DEDUCED) reads it. -/
def Obligations.OperandFetchIsStrict : Prop :=
  ∀ (c : Config) (s : State) (i : Instr), s.run = .running →
    (∀ k, (h : k < (encode i).length) → s.pc.toNat + k < c.memCells →
      Memory.read s.mem (s.pc.toNat + k) = (encode i)[k]) →
    (s.pc.toNat + (encode i).length ≤ c.memCells → stepWith c s = exec i s) ∧
    (s.pc.toNat < c.memCells → c.memCells < s.pc.toNat + (encode i).length →
      stepWith c s = .next
        { s with
          run := .faulted .addressOutOfRange
            { pc := s.pc
              ir := (encode i).head?
              opa := if s.pc.toNat + 1 < c.memCells then (encode i)[1]? else none
              opb := none
              value := c.memCells
              regs := s.x } })

/-- An opcode fetch at or above the capacity is not performed and faults, with no opcode in the report (rule R112, with the
range fault of the spec's decision D5). The report without any latch is rules R35 and R243 as log entry 9 (DEDUCED) reads
them. -/
def Obligations.OpcodeFetchBeyondMemoryFaults : Prop :=
  ∀ (c : Config) (s : State), s.run = .running → c.memCells ≤ s.pc.toNat →
    stepWith c s = .next { s with run := .faulted .addressOutOfRange ⟨s.pc, none, none, none, s.pc.toNat, s.x⟩ }

/-- A terminal state has no step (the model's form of "no step" is log entry 6) and a running state always has one (rules
R122 and R125, which the spec marks as its decision D15 and as derived). -/
def Obligations.StepExistsExactlyWhileRunning : Prop :=
  ∀ (c : Config) (s : State),
    (s.run = .running → ∃ t, stepWith c s = .next t) ∧
    (s.run = .halted → stepWith c s = .fault .stoppedHalted) ∧
    (s.isFaulted → stepWith c s = .fault .stoppedFaulted)

/-- Rule R118: after an instruction with `spc` = 0 that neither halts nor faults, `pc` is `A + ir[7:6] + 1`, and that is the
number of bytes of the instruction. -/
def Obligations.SequentialInstructionsAdvanceByLength : Prop :=
  ∀ (i : Instr) (s t : State), i.ir.getLsbD 4 = false → s.run = .running → exec i s = .next t → t.run = .running →
    t.pc = s.pc + BitVec.ofNat 16 (i.ir.toNat / 64 + 1) ∧ (encode i).length = i.ir.toNat / 64 + 1

/-- The whole table of rule R121, which the spec marks as derived, as one function of the state: a running step that does not
fault leaves exactly that `pc`. The opcode values are general knowledge (UNVERIFIED, log entry 1). -/
def Obligations.NextPcFollowsTable : Prop :=
  ∀ (c : Config) (s t : State), c.legal → stepWith c s = .next t → ¬ t.isFaulted → t.pc.toNat = nextPc s

/-- Only sequential advance can carry `pc` to 256 or above, and it never wraps (rules R66 and R120, which the spec marks as
derived and as its decision D4). A step that ends with `pc` at 256 or above left `pc` where it was, halted or faulted, or
moved it past the instruction fetched; and an instruction that does not set `pc` itself and goes on moves `pc` by its length
as natural numbers, up to the end of the largest memory. -/
def Obligations.OnlySequentialAdvanceReaches256 : Prop :=
  ∀ (c : Config) (s t : State), c.legal → stepWith c s = .next t →
    (256 ≤ t.pc.toNat → s.pc.toNat ≤ t.pc.toNat ∧ t.pc.toNat ≤ s.pc.toNat + 3 ∧
      ((t.run ≠ .running ∧ t.pc = s.pc) ∨
        ∃ i, s.fetch c = .ok i ∧ t.pc.toNat = s.pc.toNat + (encode i).length)) ∧
    (∀ i, s.fetch c = .ok i → i.ir.getLsbD 4 = false → t.run = .running →
      t.pc.toNat = s.pc.toNat + (encode i).length)

/-- The capacity matters only near the end of memory: away from it, machines of two capacities step alike (rule R6, the
spec's decision D3). The capacity as an argument is log entry 7 (DEDUCED). -/
def Obligations.CapacityMattersOnlyAtTheEnd : Prop :=
  ∀ (c c' : Config) (s : State), s.pc.toNat + 2 < c.memCells → s.pc.toNat + 2 < c'.memCells →
    stepWith c s = stepWith c' s

/-! ### Faults -/

/-- A running step faults exactly when the order of checks of rule R248 finds a fault, with the first one found, its cause,
`info.value` and report, and nothing but `run` written; else it goes on or halts. The order is the spec's decision D14, the
report its decision D13, with the latches of rule R35 (log entry 9). The opcode values are general knowledge (UNVERIFIED, log
entry 1). -/
def Obligations.StepReportsTheFirstFault : Prop :=
  ∀ (c : Config) (s : State), s.run = .running →
    match firstFault c s with
    | some (cause, value) =>
      stepWith c s = .next { s with
        run := .faulted cause
          { pc := s.pc
            ir := if s.pc.toNat < c.memCells then some (Memory.read s.mem s.pc.toNat) else none
            opa := if 1 ≤ operandsFetched c s then some (Memory.read s.mem (s.pc.toNat + 1)) else none
            opb := if 2 ≤ operandsFetched c s then some (Memory.read s.mem (s.pc.toNat + 2)) else none
            value := value
            regs := s.x } }
    | none => ∃ t, stepWith c s = .next t ∧ (t.run = .running ∨ t.run = .halted)

/-- Faults are precise (rule R243, the spec's decision D13): the step that faults leaves everything but `run` as it was, and
the report shows that state and, in the latches that have a value, the bytes at `pc` (rule R35, log entry 9). -/
def Obligations.FaultsArePrecise : Prop :=
  ∀ (c : Config) (s t : State) (cause : FaultCause) (info : FaultInfo), stepWith c s = .next t →
    t.run = .faulted cause info →
    t = { s with run := .faulted cause info } ∧ info.pc = s.pc ∧ info.regs = s.x ∧ LatchesSound s info

/-- The cause codes of the table of rule R240, the spec's decision D13: 1 to 6, all different. -/
def Obligations.FaultCausesAreNumberedOneToSix : Prop :=
  ([.invalidInstruction, .unsupportedALUOperation, .addressOutOfRange, .registerIndexOutOfRange, .divideByZero,
    .valueOutOfRange] : List FaultCause).map FaultCause.code = [1, 2, 3, 4, 5, 6] ∧
  (∀ cause cause' : FaultCause, cause.code = cause'.code → cause = cause')

/-! ### Whole-machine frames -/

/-- Rule R154: CMP is the only instruction of the machine that writes `FL`, and it writes the flags of its two registers. -/
def Obligations.OnlyCmpWritesFlags : Prop :=
  (∀ (i : Instr) (s t : State), exec i s = .next t → (∀ a b, i ≠ .cmp a b) → t.fl = s.fl) ∧
  (∀ (c : Config) (s t : State), stepWith c s = .next t → t.fl ≠ s.fl →
    ∃ a b : Reg, s.fetch c = .ok (.cmp (regByte a) (regByte b)))

/-- Rule R32: `out` is the sequence of values PRN has emitted since reset, oldest first; no instruction reads it, and it is
empty at reset. -/
def Obligations.OutputOnlyGrowsAndIsNeverRead : Prop :=
  State.reset.out = [] ∧
  ∀ (c : Config) (s t : State), stepWith c s = .next t →
    ∃ emitted : List Byte,
      ((∃ r : Reg, s.fetch c = .ok (.prn (regByte r)) ∧ emitted = [s.reg r]) ∨
        ((∀ r : Reg, s.fetch c ≠ .ok (.prn (regByte r))) ∧ emitted = [])) ∧
      ∀ out : List Byte, stepWith c { s with out := out } = .next { t with out := out ++ emitted }

/-- The write column of the table of rule R22: a register that changes is the instruction's named destination, or is the stack
pointer under PUSH, POP, CALL or RET; and every register, 7 included, reads back the last value written. -/
def Obligations.OnlyNamedRegistersAndStackPointerChange : Prop :=
  (∀ (i : Instr) (s t : State) (k : Reg), exec i s = .next t → t.reg k ≠ s.reg k →
    namedDestination i = some (regByte k) ∨ (k = 7 ∧ usesStackPointer i = true)) ∧
  (∀ (s : State) (r k : Reg) (v : Byte), (s.setReg r v).reg k = if k = r then v else s.reg k)

/-- The write row of the table of rule R55: only PUSH and CALL write memory, each the one cell at `SP` after its decrement,
which is below 256 (rule R66). -/
def Obligations.OnlyPushAndCallWriteMemory : Prop :=
  (∀ (i : Instr) (s t : State), exec i s = .next t → storesToStack i = false → SameMem s t) ∧
  (∀ (i : Instr) (s t : State), exec i s = .next t → storesToStack i = true →
    ∀ addr, addr = s.decSp.stackAddr → addr < 256 ∧ SameMemBut s t addr)

/-- The read rows of the table of rule R55 with the strict fetch of rule R114 (the spec's decision D6): what a running step
does to everything but memory depends on no cell but those of the instruction's own bytes and, for POP and RET, the cell at
`SP`. -/
def Obligations.StepReadsOnlyItsBytesAndTheStackCell : Prop :=
  ∀ (c : Config) (s t : State) (m : Memory), stepWith c s = .next t →
    (∀ k, k ≤ cntField (Memory.read s.mem s.pc.toNat) →
      Memory.read m (s.pc.toNat + k) = Memory.read s.mem (s.pc.toNat + k)) →
    (∀ i, s.fetch c = .ok i → loadsFromStack i = true → Memory.read m s.stackAddr = Memory.read s.mem s.stackAddr) →
    ∃ t', stepWith c { s with mem := m } = .next t' ∧
      t'.x = t.x ∧ t'.pc = t.pc ∧ t'.fl = t.fl ∧ t'.out = t.out ∧ t'.run = t.run

/-- A byte written by PUSH or CALL is what the next fetch of its address reads as its opcode (rule R64, which the spec marks
as derived): for every allowed capacity, in every state `u` with `pc` at the address stored to and that cell as the
instruction left it, the very next state among them. What a fetched byte then leads to is rules R90, R91, R111, R114 and R243
(decisions D5, D6 and D13), and the operand byte in the report is rule R35 as log entry 9 (DEDUCED) reads it. The canonical
form of memory is log entry 3 (DESIGN CHOICE). The opcode values are general knowledge (UNVERIFIED, log entry 1). -/
def Obligations.PushedByteIsFetchedAsCode : Prop :=
  (∀ (c : Config) (ra : Reg) (s t u : State), c.legal → Memory.wf s.mem = true →
    exec (.push (regByte ra)) s = .next t → u.pc.toNat = s.decSp.stackAddr →
    Memory.read u.mem s.decSp.stackAddr = Memory.read t.mem s.decSp.stackAddr →
    FetchesOpcode c u (t.reg ra)) ∧
  (∀ (c : Config) (ra : Reg) (s t u : State), c.legal → Memory.wf s.mem = true → s.pc.toNat + 2 ≤ 0xFF →
    exec (.call (regByte ra)) s = .next t → u.pc.toNat = s.decSp.stackAddr →
    Memory.read u.mem s.decSp.stackAddr = Memory.read t.mem s.decSp.stackAddr →
    FetchesOpcode c u (BitVec.ofNat 8 (s.pc.toNat + 2)))

/-! ### Memory, reset, load -/

/-- Rules R52 and R53: a write makes its cell hold the value and changes no other, in any canonical memory; and a canonical
memory stays so. The canonical form is the model's (log entry 3). -/
def Obligations.ReadAfterWriteInCanonicalMemory : Prop :=
  ∀ (m : Memory) (addr : Nat) (v : Byte), Memory.wf m = true →
    Memory.wf (Memory.write m addr v) = true ∧
    ∀ a, Memory.read (Memory.write m addr v) a = if a = addr then v else Memory.read m a

/-- Two canonical memories that read alike are equal as data: the model's own convention (log entry 3). -/
def Obligations.CanonicalMemoryIsDeterminedByItsCells : Prop :=
  ∀ m m' : Memory, Memory.wf m = true → Memory.wf m' = true →
    (∀ a, Memory.read m a = Memory.read m' a) → m = m'

/-- The reset values of rules R36 and R280. `x[7]` is the source's; the zeros are the spec's decision D12, taken by the model
where rule R36 leaves it a choice (log entry 2), and `run` is log entry 4. -/
def Obligations.ResetLeavesTheStatedValues : Prop :=
  State.reset.reg 7 = 0xF4 ∧ (∀ k : Reg, k ≠ 7 → State.reset.reg k = 0) ∧ State.reset.pc = 0 ∧
  State.reset.fl = 0 ∧ (∀ a, Memory.read State.reset.mem a = 0) ∧ State.reset.out = [] ∧ State.reset.run = .running

/-- The Loader's contract of rule R221: after loading an image of at most `MEM_CELLS` bytes, cell i holds byte i, every other
cell its reset value (log entry 2), and `pc`, the registers, `FL`, `out` and `run` are as reset left them. The canonical form
of memory is log entry 3 (DESIGN CHOICE), and loading as a function on states with `run` unchanged is log entry 4 (DEDUCED). -/
def Obligations.LoaderWritesTheImageAndNothingElse : Prop :=
  ∀ (c : Config) (image : List Byte), image.length ≤ c.memCells →
    ∃ s, loadImage c image State.reset = some s ∧
      (∀ i, (h : i < image.length) → Memory.read s.mem i = image[i]) ∧
      (∀ a, image.length ≤ a → Memory.read s.mem a = Memory.read State.reset.mem a) ∧
      SameRegsBut State.reset s [] ∧ s.pc = State.reset.pc ∧ s.fl = State.reset.fl ∧
      s.out = State.reset.out ∧ s.run = State.reset.run

/-- Rule R222, the spec's decision D22: an image longer than memory is refused, and the empty image faults at once with
InvalidInstruction at `pc` = 0. The report without operand bytes is rule R35 as log entry 9 (DEDUCED) reads it. The 0 of the
unloaded cell is log entry 2 (DESIGN CHOICE), and that the next step runs is log entry 4 (DEDUCED). -/
def Obligations.LoaderBoundsAndEmptyImage : Prop :=
  (∀ (c : Config) (image : List Byte) (s : State), c.memCells < image.length → loadImage c image s = none) ∧
  (∀ c : Config, c.legal → ∃ s t info, loadImage c [] State.reset = some s ∧ stepWith c s = .next t ∧
    t.run = .faulted .invalidInstruction info ∧ info.pc = 0 ∧ info.ir = some 0 ∧ info.opa = none ∧ info.opb = none ∧
    info.value = 0)

/-! ### The invariant -/

/-- The reset state is sound, for every allowed capacity. The zeros of `FL` and memory are log entry 2 (DESIGN CHOICE), the
canonical form of memory is log entry 3 (DESIGN CHOICE), and `run` is log entry 4 (DEDUCED). -/
def Obligations.ResetStateIsSound : Prop := ∀ c : Config, c.legal → State.Sound c State.reset

/-- Loading an image into the reset state gives a sound state. `FL` and the cells not loaded hold the zeros of log entry 2
(DESIGN CHOICE) and `pc` the 0 of rule R36; the canonical form of memory is log entry 3 (DESIGN CHOICE), and loading as a
function on states is log entry 4 (DEDUCED). -/
def Obligations.LoadedStateIsSound : Prop :=
  ∀ (c : Config) (image : List Byte) (s : State), c.legal → loadImage c image State.reset = some s → State.Sound c s

/-- EVERY STEP KEEPS THE INVARIANT: canonical memory inside the capacity, `FL` one of 0, 1, 2, 4 (rule R30), `pc` at most one
past the last cell (rules R27, R120) and, at the error exit, a report that fits its cause and shows the bytes at `pc` (rules
R35, R240, R243); for every allowed capacity, and for this hardware. The canonical form of memory is log entry 3 (DESIGN
CHOICE): no rule asks for it. The latches in the report are rule R35 as log entry 9 (DEDUCED) reads it, the opcode bytes it
is held to are log entry 1 (UNVERIFIED), and the capacity as an argument is log entry 7 (DEDUCED). -/
def Obligations.StepKeepsStateSound : Prop :=
  (∀ (c : Config) (s t : State), c.legal → State.Sound c s → stepWith c s = .next t → State.Sound c t) ∧
  (∀ s t : State, State.Sound hardware s → step s = .next t → State.Sound hardware t)

/-- Every state that any number of steps reaches from any loaded image is sound, and if it is not running it has no step.
What sound means is rules R28, R30, R35, R50, R66, R120, R240 and R243 (see StepKeepsStateSound), and that a terminal state
has no step is rules R122 and R250. It rests on the reset values of log entry 2 (DESIGN CHOICE), the canonical form of memory
of log entry 3 (DESIGN CHOICE), the load of log entry 4 (DEDUCED), the form of having no step of log entry 6 (DEDUCED), and
the latches in the report of log entry 9 (DEDUCED). -/
def Obligations.EveryRunOfEveryImageStaysSound : Prop :=
  ∀ (c : Config) (image : List Byte) (s t : State), c.legal → loadImage c image State.reset = some s → Reaches c s t →
    State.Sound c t ∧ (t.terminal → ∀ u, stepWith c t ≠ .next u)
end

