-- ==== Sys2Proof/Laws/Memory.lean ====
section
/-! SUPPORT. The laws of memory: a read after a write, and the canonical form kept by every operation. -/

namespace Sys2Proof.Machine

/-! ### Read after write -/

/-- A write leaves every other cell alone, in any memory. -/
@[simp] theorem Memory.read_write_ne (m : Memory) {addr a : Nat} (v : Byte) (h : a ≠ addr) :
    Memory.read (Memory.write m addr v) a = Memory.read m a := by
  induction m with
  | nil => by_cases hv : v = Memory.blank <;> simp [Memory.write, Memory.read, hv, h]
  | cons c rest ih =>
    obtain ⟨b, w⟩ := c
    simp only [Memory.write]
    split_ifs with h1 h2 h3 h4
    · rfl
    · simp [Memory.read, h]
    · subst h3; simp [Memory.read, h]
    · subst h3; simp [Memory.read, h]
    · simp [Memory.read, ih]

/-- A cell below every listed one reads blank. -/
theorem Memory.read_below {lo a : Nat} (m : Memory) (h : Memory.wfFrom lo m = true) (ha : a < lo) :
    Memory.read m a = Memory.blank := by
  induction m generalizing lo with
  | nil => rfl
  | cons c rest ih =>
    obtain ⟨b, w⟩ := c
    simp only [Memory.wfFrom, Bool.and_eq_true, decide_eq_true_eq] at h
    have hne : a ≠ b := by omega
    simp only [Memory.read, hne, if_false]
    exact ih h.2 (by omega)

theorem Memory.read_write_same_from {lo : Nat} (m : Memory) (h : Memory.wfFrom lo m = true) (addr : Nat) (v : Byte) :
    Memory.read (Memory.write m addr v) addr = v := by
  induction m generalizing lo with
  | nil => by_cases hv : v = Memory.blank <;> simp [Memory.write, Memory.read, hv]
  | cons c rest ih =>
    obtain ⟨b, w⟩ := c
    simp only [Memory.wfFrom, Bool.and_eq_true, decide_eq_true_eq] at h
    simp only [Memory.write]
    split_ifs with h1 h2 h3 h4
    · have hne : addr ≠ b := by omega
      simp only [Memory.read, hne, if_false, h2]
      exact Memory.read_below rest h.2 (by omega)
    · simp [Memory.read]
    · rw [h4]
      exact Memory.read_below rest h.2 (by omega)
    · simp [Memory.read]
    · simp only [Memory.read, h3, if_false]
      exact ih h.2

/-- The written cell reads as the value written, in a canonical memory. -/
theorem Memory.read_write_same (m : Memory) (h : Memory.wf m = true) (addr : Nat) (v : Byte) :
    Memory.read (Memory.write m addr v) addr = v :=
  Memory.read_write_same_from m h addr v

/-! ### The canonical form -/

theorem Memory.wfFrom_mono {lo lo' : Nat} (m : Memory) (h : Memory.wfFrom lo m = true) (hl : lo' ≤ lo) :
    Memory.wfFrom lo' m = true := by
  cases m with
  | nil => rfl
  | cons c rest =>
    obtain ⟨b, w⟩ := c
    simp only [Memory.wfFrom, Bool.and_eq_true, decide_eq_true_eq] at h ⊢
    exact ⟨⟨by omega, h.1.2⟩, h.2⟩

theorem Memory.wfFrom_write {lo : Nat} (m : Memory) (h : Memory.wfFrom lo m = true) {addr : Nat} (hl : lo ≤ addr)
    (v : Byte) : Memory.wfFrom lo (Memory.write m addr v) = true := by
  induction m generalizing lo with
  | nil => by_cases hv : v = Memory.blank <;> simp [Memory.write, Memory.wfFrom, hv, hl]
  | cons c rest ih =>
    obtain ⟨b, w⟩ := c
    simp only [Memory.wfFrom, Bool.and_eq_true, decide_eq_true_eq] at h
    simp only [Memory.write]
    split_ifs with h1 h2 h3 h4
    · simp [Memory.wfFrom, h]
    · simp [Memory.wfFrom, h, h2, hl, Nat.succ_le_of_lt h1]
    · exact Memory.wfFrom_mono rest h.2 (by omega)
    · subst h3; simp [Memory.wfFrom, h, h4]
    · simp only [Memory.wfFrom, Bool.and_eq_true, decide_eq_true_eq]
      exact ⟨h.1, ih h.2 (by omega)⟩

/-- A write keeps the canonical form. -/
theorem Memory.wf_write (m : Memory) (h : Memory.wf m = true) (addr : Nat) (v : Byte) :
    Memory.wf (Memory.write m addr v) = true :=
  Memory.wfFrom_write m h (Nat.zero_le _) v

/-- Writing a run of bytes keeps the canonical form. -/
theorem Memory.wf_writeBytes (m : Memory) (h : Memory.wf m = true) (addr : Nat) (bs : List Byte) :
    Memory.wf (Memory.writeBytes m addr bs) = true := by
  induction bs generalizing m addr with
  | nil => exact h
  | cons b rest ih => exact ih _ (Memory.wf_write m h addr b) _

/-- The memory of the reset state is canonical. -/
theorem reset_mem_wf : Memory.wf State.reset.mem = true := rfl

/-! ### Listed addresses stay inside the capacity -/

/-- Every cell listed after a write is the one written or one listed before. -/
theorem Memory.mem_write {m : Memory} {addr : Nat} {v : Byte} {c : Host.Cell} (h : c ∈ Memory.write m addr v) :
    c.1 = addr ∨ c ∈ m := by
  induction m with
  | nil =>
    simp only [Memory.write] at h
    split_ifs at h
    · simp at h
    · left; simp at h; simp [h]
  | cons d rest ih =>
    obtain ⟨b, w⟩ := d
    simp only [Memory.write] at h
    split_ifs at h with h1 h2 h3 h4
    · right; exact h
    · rcases List.mem_cons.1 h with rfl | h
      · left; rfl
      · right; exact h
    · right; exact List.mem_cons_of_mem _ h
    · rcases List.mem_cons.1 h with rfl | h
      · left; rfl
      · right; exact List.mem_cons_of_mem _ h
    · rcases List.mem_cons.1 h with rfl | h
      · right; exact List.mem_cons_self
      · rcases ih h with h | h
        · left; exact h
        · right; exact List.mem_cons_of_mem _ h

theorem Memory.mem_writeBytes {m : Memory} {addr : Nat} {bs : List Byte} {c : Host.Cell}
    (h : c ∈ Memory.writeBytes m addr bs) : (addr ≤ c.1 ∧ c.1 < addr + bs.length) ∨ c ∈ m := by
  induction bs generalizing m addr with
  | nil => right; exact h
  | cons b rest ih =>
    rcases ih h with h | h
    · left; simp only [List.length_cons]; omega
    · rcases Memory.mem_write h with h | h
      · left; simp only [List.length_cons]; omega
      · right; exact h

/-! ### A run of bytes -/

/-- What a cell reads as after a run of bytes is written. -/
theorem Memory.read_writeBytes (m : Memory) (h : Memory.wf m = true) (addr : Nat) (bs : List Byte) (a : Nat) :
    Memory.read (Memory.writeBytes m addr bs) a =
      if addr ≤ a then (bs[a - addr]?).getD (Memory.read m a) else Memory.read m a := by
  induction bs generalizing m addr with
  | nil => simp [Memory.writeBytes]
  | cons b rest ih =>
    rw [Memory.writeBytes, ih _ (Memory.wf_write m h addr b)]
    by_cases h1 : addr + 1 ≤ a
    · have h2 : addr ≤ a := by omega
      have h3 : a ≠ addr := by omega
      have h4 : a - addr = (a - (addr + 1)) + 1 := by omega
      simp [h1, h2, h3, h4]
    · by_cases h2 : a = addr
      · subst h2; simp [Memory.read_write_same _ h]
      · have h3 : ¬ addr ≤ a := by omega
        simp [h1, h2, h3]

end Sys2Proof.Machine
end

