-- ==== Sys2Proof/Laws/State.lean ====
section
/-! SUPPORT. What each update of the state does to each field: one lemma per field per update, so that no later proof
unfolds a record update. -/

namespace Sys2Proof.Machine

/-! ### Registers -/

@[simp] theorem State.reg_setReg_same (s : State) (r : Reg) (v : Byte) : (s.setReg r v).reg r = v := by
  simp [State.reg, State.setReg]

@[simp] theorem State.reg_setReg_ne (s : State) {r k : Reg} (v : Byte) (h : k ≠ r) : (s.setReg r v).reg k = s.reg k := by
  have h' : r.val ≠ k.val := fun e => h (Fin.ext e.symm)
  simp [State.reg, State.setReg, h']

/-- Reading any register after writing one. -/
theorem State.reg_setReg (s : State) (r k : Reg) (v : Byte) : (s.setReg r v).reg k = if k = r then v else s.reg k := by
  by_cases h : k = r
  · subst h; simp
  · simp [h]

@[simp] theorem State.reg_decSp (s : State) (k : Reg) :
    s.decSp.reg k = if k = Config.spIndex then trunc8 ((s.sp.toNat : Int) - 1) else s.reg k := by
  simp only [State.decSp, State.setSp, State.reg_setReg]

@[simp] theorem State.reg_incSp (s : State) (k : Reg) :
    s.incSp.reg k = if k = Config.spIndex then trunc8 ((s.sp.toNat : Int) + 1) else s.reg k := by
  simp only [State.incSp, State.setSp, State.reg_setReg]

@[simp] theorem State.sp_decSp (s : State) : s.decSp.sp = trunc8 ((s.sp.toNat : Int) - 1) := by
  simp [State.sp]

@[simp] theorem State.sp_incSp (s : State) : s.incSp.sp = trunc8 ((s.sp.toNat : Int) + 1) := by
  simp [State.sp]

/-- Two register files that read alike are the same. -/
theorem State.x_ext {s t : State} (h : ∀ k, s.reg k = t.reg k) : s.x = t.x := by
  apply Vector.ext
  intro i hi
  exact h ⟨i, hi⟩

/-! ### setReg -/

@[simp] theorem State.pc_setReg (s : State) (r : Reg) (v : Byte) : (s.setReg r v).pc = s.pc := rfl

@[simp] theorem State.fl_setReg (s : State) (r : Reg) (v : Byte) : (s.setReg r v).fl = s.fl := rfl

@[simp] theorem State.mem_setReg (s : State) (r : Reg) (v : Byte) : (s.setReg r v).mem = s.mem := rfl

@[simp] theorem State.out_setReg (s : State) (r : Reg) (v : Byte) : (s.setReg r v).out = s.out := rfl

@[simp] theorem State.run_setReg (s : State) (r : Reg) (v : Byte) : (s.setReg r v).run = s.run := rfl

/-! ### setSp -/

@[simp] theorem State.pc_setSp (s : State) (v : Byte) : (s.setSp v).pc = s.pc := rfl

@[simp] theorem State.fl_setSp (s : State) (v : Byte) : (s.setSp v).fl = s.fl := rfl

@[simp] theorem State.mem_setSp (s : State) (v : Byte) : (s.setSp v).mem = s.mem := rfl

@[simp] theorem State.out_setSp (s : State) (v : Byte) : (s.setSp v).out = s.out := rfl

@[simp] theorem State.run_setSp (s : State) (v : Byte) : (s.setSp v).run = s.run := rfl

/-! ### decSp -/

@[simp] theorem State.pc_decSp (s : State) : s.decSp.pc = s.pc := rfl

@[simp] theorem State.fl_decSp (s : State) : s.decSp.fl = s.fl := rfl

@[simp] theorem State.mem_decSp (s : State) : s.decSp.mem = s.mem := rfl

@[simp] theorem State.out_decSp (s : State) : s.decSp.out = s.out := rfl

@[simp] theorem State.run_decSp (s : State) : s.decSp.run = s.run := rfl

/-! ### incSp -/

@[simp] theorem State.pc_incSp (s : State) : s.incSp.pc = s.pc := rfl

@[simp] theorem State.fl_incSp (s : State) : s.incSp.fl = s.fl := rfl

@[simp] theorem State.mem_incSp (s : State) : s.incSp.mem = s.mem := rfl

@[simp] theorem State.out_incSp (s : State) : s.incSp.out = s.out := rfl

@[simp] theorem State.run_incSp (s : State) : s.incSp.run = s.run := rfl

/-! ### advance -/

@[simp] theorem State.x_advance (s : State) (ir : Byte) : (s.advance ir).x = s.x := rfl

@[simp] theorem State.reg_advance (s : State) (ir : Byte) (k : Reg) : (s.advance ir).reg k = s.reg k := rfl

@[simp] theorem State.sp_advance (s : State) (ir : Byte) : (s.advance ir).sp = s.sp := rfl

@[simp] theorem State.pc_advance (s : State) (ir : Byte) : (s.advance ir).pc = s.pc + BitVec.ofNat 16 (instrLength ir) := rfl

@[simp] theorem State.fl_advance (s : State) (ir : Byte) : (s.advance ir).fl = s.fl := rfl

@[simp] theorem State.mem_advance (s : State) (ir : Byte) : (s.advance ir).mem = s.mem := rfl

@[simp] theorem State.out_advance (s : State) (ir : Byte) : (s.advance ir).out = s.out := rfl

@[simp] theorem State.run_advance (s : State) (ir : Byte) : (s.advance ir).run = s.run := rfl

/-! ### jumpTo -/

@[simp] theorem State.x_jumpTo (s : State) (p : PcWord) : (s.jumpTo p).x = s.x := rfl

@[simp] theorem State.reg_jumpTo (s : State) (p : PcWord) (k : Reg) : (s.jumpTo p).reg k = s.reg k := rfl

@[simp] theorem State.sp_jumpTo (s : State) (p : PcWord) : (s.jumpTo p).sp = s.sp := rfl

@[simp] theorem State.pc_jumpTo (s : State) (p : PcWord) : (s.jumpTo p).pc = p := rfl

@[simp] theorem State.fl_jumpTo (s : State) (p : PcWord) : (s.jumpTo p).fl = s.fl := rfl

@[simp] theorem State.mem_jumpTo (s : State) (p : PcWord) : (s.jumpTo p).mem = s.mem := rfl

@[simp] theorem State.out_jumpTo (s : State) (p : PcWord) : (s.jumpTo p).out = s.out := rfl

@[simp] theorem State.run_jumpTo (s : State) (p : PcWord) : (s.jumpTo p).run = s.run := rfl

/-! ### storeAtSp -/

@[simp] theorem State.x_storeAtSp (s : State) (v : Byte) : (s.storeAtSp v).x = s.x := rfl

@[simp] theorem State.reg_storeAtSp (s : State) (v : Byte) (k : Reg) : (s.storeAtSp v).reg k = s.reg k := rfl

@[simp] theorem State.sp_storeAtSp (s : State) (v : Byte) : (s.storeAtSp v).sp = s.sp := rfl

@[simp] theorem State.pc_storeAtSp (s : State) (v : Byte) : (s.storeAtSp v).pc = s.pc := rfl

@[simp] theorem State.fl_storeAtSp (s : State) (v : Byte) : (s.storeAtSp v).fl = s.fl := rfl

@[simp] theorem State.mem_storeAtSp (s : State) (v : Byte) : (s.storeAtSp v).mem = Memory.write s.mem s.stackAddr v := rfl

@[simp] theorem State.out_storeAtSp (s : State) (v : Byte) : (s.storeAtSp v).out = s.out := rfl

@[simp] theorem State.run_storeAtSp (s : State) (v : Byte) : (s.storeAtSp v).run = s.run := rfl

/-! ### emit -/

@[simp] theorem State.x_emit (s : State) (v : Byte) : (s.emit v).x = s.x := rfl

@[simp] theorem State.reg_emit (s : State) (v : Byte) (k : Reg) : (s.emit v).reg k = s.reg k := rfl

@[simp] theorem State.sp_emit (s : State) (v : Byte) : (s.emit v).sp = s.sp := rfl

@[simp] theorem State.pc_emit (s : State) (v : Byte) : (s.emit v).pc = s.pc := rfl

@[simp] theorem State.fl_emit (s : State) (v : Byte) : (s.emit v).fl = s.fl := rfl

@[simp] theorem State.mem_emit (s : State) (v : Byte) : (s.emit v).mem = s.mem := rfl

@[simp] theorem State.out_emit (s : State) (v : Byte) : (s.emit v).out = s.out ++ [v] := rfl

@[simp] theorem State.run_emit (s : State) (v : Byte) : (s.emit v).run = s.run := rfl

/-! ### halt -/

@[simp] theorem State.x_halt (s : State) : s.halt.x = s.x := rfl

@[simp] theorem State.reg_halt (s : State) (k : Reg) : s.halt.reg k = s.reg k := rfl

@[simp] theorem State.sp_halt (s : State) : s.halt.sp = s.sp := rfl

@[simp] theorem State.pc_halt (s : State) : s.halt.pc = s.pc := rfl

@[simp] theorem State.fl_halt (s : State) : s.halt.fl = s.fl := rfl

@[simp] theorem State.mem_halt (s : State) : s.halt.mem = s.mem := rfl

@[simp] theorem State.out_halt (s : State) : s.halt.out = s.out := rfl

@[simp] theorem State.run_halt (s : State) : s.halt.run = .halted := rfl

/-! ### takeFault -/

@[simp] theorem State.x_takeFault (s : State) (c : FaultCause) (bs : List Byte) (n : Nat) :
    (s.takeFault c bs n).x = s.x := rfl

@[simp] theorem State.sp_takeFault (s : State) (c : FaultCause) (bs : List Byte) (n : Nat) :
    (s.takeFault c bs n).sp = s.sp := rfl

@[simp] theorem State.pc_takeFault (s : State) (c : FaultCause) (bs : List Byte) (n : Nat) :
    (s.takeFault c bs n).pc = s.pc := rfl

@[simp] theorem State.fl_takeFault (s : State) (c : FaultCause) (bs : List Byte) (n : Nat) :
    (s.takeFault c bs n).fl = s.fl := rfl

@[simp] theorem State.mem_takeFault (s : State) (c : FaultCause) (bs : List Byte) (n : Nat) :
    (s.takeFault c bs n).mem = s.mem := rfl

@[simp] theorem State.out_takeFault (s : State) (c : FaultCause) (bs : List Byte) (n : Nat) :
    (s.takeFault c bs n).out = s.out := rfl

@[simp] theorem State.reg_takeFault (s : State) (c : FaultCause) (bs : List Byte) (n : Nat) (k : Reg) :
    (s.takeFault c bs n).reg k = s.reg k := rfl

@[simp] theorem State.run_takeFault (s : State) (c : FaultCause) (bs : List Byte) (n : Nat) :
    (s.takeFault c bs n).run = .faulted c
      { pc := s.pc, ir := bs[0]?, opa := bs[1]?, opb := bs[2]?, value := n, regs := s.x } := rfl

/-! ### setFl -/

@[simp] theorem State.x_setFl (s : State) (v : Byte) : (s.setFl v).x = s.x := rfl

@[simp] theorem State.reg_setFl (s : State) (v : Byte) (k : Reg) : (s.setFl v).reg k = s.reg k := rfl

@[simp] theorem State.sp_setFl (s : State) (v : Byte) : (s.setFl v).sp = s.sp := rfl

@[simp] theorem State.pc_setFl (s : State) (v : Byte) : (s.setFl v).pc = s.pc := rfl

@[simp] theorem State.fl_setFl (s : State) (v : Byte) : (s.setFl v).fl = v := rfl

@[simp] theorem State.mem_setFl (s : State) (v : Byte) : (s.setFl v).mem = s.mem := rfl

@[simp] theorem State.out_setFl (s : State) (v : Byte) : (s.setFl v).out = s.out := rfl

@[simp] theorem State.run_setFl (s : State) (v : Byte) : (s.setFl v).run = s.run := rfl

end Sys2Proof.Machine
end

