-- ==== Sys2Proof/Laws/Ops.lean ====
section
/-! SUPPORT. One lemma per shared operation that says what it can do; proofs about instructions cite these. -/

namespace Sys2Proof.Machine

/-! ### Integers and bytes -/

/-- Narrowing a natural number is modulo 256. -/
@[simp] theorem trunc8_natCast_toNat (n : Nat) : (trunc8 (n : Int)).toNat = n % 256 := by
  simp [trunc8]

/-- Narrowing keeps a number that fits. -/
theorem trunc8_natCast_of_lt {n : Nat} (h : n < 256) : (trunc8 (n : Int)).toNat = n := by
  rw [trunc8_natCast_toNat, Nat.mod_eq_of_lt h]

/-- Narrowing any integer: the mathematical modulo. -/
theorem trunc8_toNat (v : Int) : ((trunc8 v).toNat : Int) = v % 256 := by
  simp only [trunc8, BitVec.toNat_ofInt]
  omega

/-- Narrowing a difference of naturals wraps upward. -/
theorem trunc8_sub_toNat (a b : Nat) (ha : a < 256) (hb : b < 256) :
    (trunc8 ((a : Int) - b)).toNat = (a + 256 - b) % 256 := by
  have h := trunc8_toNat ((a : Int) - b)
  omega

@[simp] theorem zext16_toNat (v : Byte) : (zext16 v).toNat = v.toNat := by
  have := v.isLt
  simp [zext16]
  omega

/-- The data address is the value of the stack pointer. -/
@[simp] theorem State.stackAddr_eq (s : State) : s.stackAddr = s.sp.toNat := by
  simp [State.stackAddr]

/-- A data address is always below 256. -/
theorem State.stackAddr_lt (s : State) : s.stackAddr < 256 := by
  have := s.sp.isLt
  simp only [State.stackAddr_eq]
  omega

/-- The stack pointer before a stack write, as a number: one less, wrapping. -/
theorem State.decSp_toNat (s : State) : (trunc8 ((s.sp.toNat : Int) - 1)).toNat = ((s.reg 7).toNat + 255) % 256 :=
  trunc8_sub_toNat s.sp.toNat 1 s.sp.isLt (by omega)

/-- The stack pointer after a stack read, as a number: one more, wrapping. -/
theorem trunc8_succ_toNat (v : Byte) : (trunc8 ((v.toNat : Int) + 1)).toNat = (v.toNat + 1) % 256 := by
  exact_mod_cast trunc8_natCast_toNat (v.toNat + 1)

/-- An increment undoes a decrement, wrap included. -/
theorem trunc8_succ_pred (v : Byte) : trunc8 (((trunc8 ((v.toNat : Int) - 1)).toNat : Int) + 1) = v := by
  revert v; decide

/-! ### Flags and the fall-through -/

/-- `FL.E` is the low bit of `FL`. -/
theorem State.flE_eq (s : State) : s.flE = decide (s.fl.toNat % 2 = 1) := by
  simp [State.flE, BitVec.getLsbD, Nat.testBit_zero]

/-- The fall-through of a two-byte control transfer, as a word. -/
theorem State.afterTwo_eq (s : State) : BitVec.ofNat 16 s.afterTwo = s.pc + 2 := by
  apply BitVec.eq_of_toNat_eq
  simp [State.afterTwo]

/-- Adding to `pc` does not wrap while the sum fits. -/
theorem pc_add_toNat {p : PcWord} {n : Nat} (h : p.toNat + n < 65536) : (p + BitVec.ofNat 16 n).toNat = p.toNat + n := by
  simp only [BitVec.toNat_add, BitVec.toNat_ofNat]
  omega

/-! ### Operand forms -/

@[simp] theorem regByte_toNat (r : Reg) : (regByte r).toNat = r.val := by
  have := r.isLt
  simp [regByte]
  omega

/-- The byte that names a register does name it. -/
@[simp] theorem regOf_regByte (r : Reg) : regOf (regByte r) = some r := by
  have := r.isLt
  simp [regOf]

theorem regOf_bad {b : Byte} (h : 7 < b.toNat) : regOf b = none := by
  simp [regOf, show ¬ b.toNat < 8 by omega]

/-- A byte names a register exactly when it is that register's byte. -/
theorem regOf_eq_some {b : Byte} {r : Reg} (h : regOf b = some r) : b = regByte r := by
  unfold regOf at h
  split at h
  · cases h
    exact BitVec.eq_of_toNat_eq (by simp)
  · cases h

/-- A byte either names a register or is above 7. -/
theorem regByte_or_bad (b : Byte) : (∃ r, b = regByte r) ∨ 7 < b.toNat := by
  by_cases h : b.toNat < 8
  · left
    refine ⟨⟨b.toNat, h⟩, BitVec.eq_of_toNat_eq (by simp)⟩
  · right; omega

@[simp] theorem withReg_regByte (i : Instr) (r : Reg) (s : State) (go : Reg → Outcome) :
    withReg i (regByte r) s go = go r := by
  simp [withReg]

theorem withReg_bad (i : Instr) {b : Byte} (h : 7 < b.toNat) (s : State) (go : Reg → Outcome) :
    withReg i b s go = .next (s.takeFault .registerIndexOutOfRange (encode i) b.toNat) := by
  simp [withReg, regOf_bad h]

@[simp] theorem withRegs_regByte (i : Instr) (a b : Reg) (s : State) (go : Reg → Reg → Outcome) :
    withRegs i (regByte a) (regByte b) s go = go a b := by
  simp [withRegs]

theorem withRegs_bad_first (i : Instr) {a b : Byte} (h : 7 < a.toNat) (s : State) (go : Reg → Reg → Outcome) :
    withRegs i a b s go = .next (s.takeFault .registerIndexOutOfRange (encode i) a.toNat) :=
  withReg_bad i h s _

theorem withRegs_bad_second (i : Instr) (a : Reg) {b : Byte} (h : 7 < b.toNat) (s : State) (go : Reg → Reg → Outcome) :
    withRegs i (regByte a) b s go = .next (s.takeFault .registerIndexOutOfRange (encode i) b.toNat) := by
  simp [withRegs, withReg_bad i h]

/-- Everything one register operand can lead to. -/
theorem withReg_cases {i : Instr} {b : Byte} {s : State} {go : Reg → Outcome} {o : Outcome} (h : withReg i b s go = o) :
    (∃ r, b = regByte r ∧ o = go r) ∨
      (7 < b.toNat ∧ o = .next (s.takeFault .registerIndexOutOfRange (encode i) b.toNat)) := by
  subst h
  rcases regByte_or_bad b with ⟨r, rfl⟩ | hb
  · exact .inl ⟨r, rfl, by simp⟩
  · exact .inr ⟨hb, withReg_bad i hb s go⟩

/-- Everything two register operands can lead to. -/
theorem withRegs_cases {i : Instr} {opa opb : Byte} {s : State} {go : Reg → Reg → Outcome} {o : Outcome}
    (h : withRegs i opa opb s go = o) :
    (∃ a b, opa = regByte a ∧ opb = regByte b ∧ o = go a b) ∨
      (7 < opa.toNat ∧ o = .next (s.takeFault .registerIndexOutOfRange (encode i) opa.toNat)) ∨
      (∃ a, opa = regByte a ∧ 7 < opb.toNat ∧
        o = .next (s.takeFault .registerIndexOutOfRange (encode i) opb.toNat)) := by
  subst h
  rcases regByte_or_bad opa with ⟨a, rfl⟩ | ha
  · rcases regByte_or_bad opb with ⟨b, rfl⟩ | hb
    · exact .inl ⟨a, b, rfl, rfl, by simp⟩
    · exact .inr (.inr ⟨a, rfl, hb, withRegs_bad_second i a hb s go⟩)
  · exact .inr (.inl ⟨ha, withRegs_bad_first i ha s go⟩)

/-- Everything a two-register ALU operation that writes its first register can do. -/
theorem aluTwo_cases {mk : Byte → Byte → Instr} {opa opb : Byte} {f : Byte → Byte → Byte} {s t : State}
    (h : aluTwo mk f opa opb s = .next t) :
    (∃ a b, opa = regByte a ∧ opb = regByte b ∧
      t = (s.setReg a (f (s.reg a) (s.reg b))).advance (mk (regByte a) (regByte b)).ir) ∨
      (∃ b ∈ [opa, opb], 7 < b.toNat ∧ t = s.takeFault .registerIndexOutOfRange (encode (mk opa opb)) b.toNat) := by
  rcases withRegs_cases h with ⟨a, b, rfl, rfl, h⟩ | ⟨ha, h⟩ | ⟨a, _, hb, h⟩
  · exact .inl ⟨a, b, rfl, rfl, by injection h⟩
  · exact .inr ⟨opa, by simp, ha, by injection h⟩
  · exact .inr ⟨opb, by simp, hb, by injection h⟩

/-! ### The stack -/

/-- What a cell reads as after a store at the stack pointer, in a canonical memory. -/
theorem State.read_storeAtSp (s : State) (h : Memory.wf s.mem = true) (v : Byte) (a : Nat) :
    Memory.read (s.storeAtSp v).mem a = if a = s.sp.toNat then v else Memory.read s.mem a := by
  by_cases ha : a = s.sp.toNat
  · subst ha; simp [Memory.read_write_same _ h]
  · simp [ha]

/-- A store at the stack pointer keeps the canonical form. -/
theorem State.wf_storeAtSp (s : State) (h : Memory.wf s.mem = true) (v : Byte) :
    Memory.wf (s.storeAtSp v).mem = true :=
  Memory.wf_write _ h _ _

end Sys2Proof.Machine
end

