-- ==== Sys2Proof/Laws/Decode.lean ====
section
/-! SUPPORT. The decoder's small lemmas: the opcode table read in both directions, and what the fetch sees. -/

namespace Sys2Proof

/-- Every row's opcode byte is recognised as that row. -/
@[simp] theorem recognise_opcode (m : Mnemonic) : recognise (opcode m) = .ok m := by
  cases m <;> rfl

/-- A recognised byte is the opcode of the row it is recognised as. -/
theorem opcode_of_recognise {ir : Byte} {m : Mnemonic} (h : recognise ir = .ok m) : opcode m = ir := by
  unfold recognise at h
  split at h
  · split at h
    · next heq => cases h; simpa using List.find?_some heq
    · cases h
  · split at h
    · next heq => cases h; simpa using List.find?_some heq
    · cases h

/-- Everything recognition can answer instead of a row. -/
theorem recognise_error {ir : Byte} {e : DecodeError} (h : recognise ir = .error e) :
    (e = .unsupportedALUOperation ir ∧ aluBit ir = true) ∨ (e = .invalidInstruction ir ∧ aluBit ir = false) := by
  unfold recognise at h
  split at h
  · next hb =>
    split at h
    · cases h
    · cases h; exact .inl ⟨rfl, hb⟩
  · next hb =>
    split at h
    · cases h
    · cases h; exact .inr ⟨rfl, by simpa using hb⟩

@[simp] theorem mnemonic_assemble (m : Mnemonic) (a b : Byte) : (assemble m a b).mnemonic = m := by
  cases m <;> rfl

/-- Everything the decoder can answer, phase by phase. -/
theorem decodeFrom_cases {get : Nat → Option Byte} {r : Except DecodeError Instr} (h : decodeFrom get = r) :
    (get 0 = none ∧ r = .error .noOpcode) ∨
    (∃ ir e, get 0 = some ir ∧ recognise ir = .error e ∧ r = .error e) ∨
    (∃ m, get 0 = some (opcode m) ∧ 1 ≤ cntField (opcode m) ∧ get 1 = none ∧ r = .error (.missingOperand [opcode m])) ∨
    (∃ m opa, get 0 = some (opcode m) ∧ cntField (opcode m) = 2 ∧ get 1 = some opa ∧ get 2 = none ∧
      r = .error (.missingOperand [opcode m, opa])) ∨
    (∃ m opa opb, get 0 = some (opcode m) ∧ (1 ≤ cntField (opcode m) → get 1 = some opa) ∧
      (cntField (opcode m) = 2 → get 2 = some opb) ∧ r = .ok (assemble m opa opb)) := by
  subst h
  unfold decodeFrom
  cases h0 : get 0 with
  | none => exact .inl ⟨rfl, rfl⟩
  | some ir =>
    cases hr : recognise ir with
    | error e => exact .inr (.inl ⟨ir, e, rfl, hr, by simp [hr]⟩)
    | ok m =>
      have hm := opcode_of_recognise hr
      subst hm
      refine .inr (.inr ?_)
      by_cases h1 : 1 ≤ cntField (opcode m)
      · cases g1 : get 1 with
        | none => exact .inl ⟨m, rfl, h1, rfl, by simp [h1]⟩
        | some opa =>
          by_cases h2 : cntField (opcode m) = 2
          · cases g2 : get 2 with
            | none => exact .inr (.inl ⟨m, opa, rfl, h2, rfl, rfl, by simp [h2]⟩)
            | some opb => exact .inr (.inr ⟨m, opa, opb, rfl, fun _ => rfl, fun _ => rfl, by simp [h2]⟩)
          · exact .inr (.inr ⟨m, opa, 0, rfl, fun _ => rfl, fun h => absurd h h2, by simp [h1, h2]⟩)
      · have h2 : ¬ cntField (opcode m) = 2 := by omega
        exact .inr (.inr ⟨m, 0, 0, rfl, fun h => absurd h h1, fun h => absurd h h2, by simp [h1, h2]⟩)

/-- The decoder looks at places 0, 1 and 2 only. -/
theorem decodeFrom_congr {g g' : Nat → Option Byte} (h : ∀ k < 3, g k = g' k) : decodeFrom g = decodeFrom g' := by
  simp only [decodeFrom, h 0 (by omega), h 1 (by omega), h 2 (by omega)]

namespace Machine

/-- The bytes at `pc` are what the fetch sees. -/
theorem State.bytesAtPc_get (c : Config) (s : State) {k : Nat} (hk : k < 3) :
    (s.bytesAtPc c)[k]? = Memory.fetchByte c s.mem (s.pc.toNat + k) := by
  by_cases h : s.pc.toNat + k < c.memCells
  · have : k < c.memCells - s.pc.toNat := by omega
    simp [State.bytesAtPc, Memory.fetchByte, hk, this, h]
  · have : ¬ k < c.memCells - s.pc.toNat := by omega
    simp [State.bytesAtPc, Memory.fetchByte, this, h]

/-- Everything a step can do in a running state: execute what was fetched, or take a fetch fault. -/
theorem stepWith_running {c : Config} {s : State} (h : s.run = .running) :
    (∃ i, s.fetch c = .ok i ∧ stepWith c s = exec i s) ∨
      (∃ e, s.fetch c = .error e ∧ stepWith c s = .next (s.takeFetchFault e)) := by
  cases hf : s.fetch c with
  | ok i => exact .inl ⟨i, rfl, by simp [stepWith, h, hf]⟩
  | error e => exact .inr ⟨e, rfl, by simp [stepWith, h, hf]⟩

/-- A step that answers a next state starts in a running state. -/
theorem running_of_stepWith {c : Config} {s t : State} (h : stepWith c s = .next t) : s.run = .running := by
  unfold stepWith at h
  split at h
  · assumption
  · cases h
  · cases h

end Machine

end Sys2Proof
end

