-- ==== Sys2Proof/Laws/PerInstr.lean ====
section
/-! SUPPORT. Facts about every instruction as syntax, one lemma per constructor: the shape of its encoding. -/

namespace Sys2Proof.Laws.EncodedShape

open Sys2Proof

/-- The encoding of an instruction has the length its opcode byte says (rule R83), begins with that byte, and that byte's
`cnt` is at most 2 (rule R93). -/
def Statement (i : Instr) : Prop :=
  (encode i).length = instrLength i.ir ∧ (encode i).head? = some i.ir ∧ cntField i.ir ≤ 2

theorem hlt : Statement Instr.hlt :=
  ⟨(by decide : 1 = instrLength (opcode .hlt)), rfl, (by decide : cntField (opcode .hlt) ≤ 2)⟩

theorem ret : Statement Instr.ret :=
  ⟨(by decide : 1 = instrLength (opcode .ret)), rfl, (by decide : cntField (opcode .ret) ≤ 2)⟩

theorem push (a : Byte) : Statement (Instr.push a) :=
  ⟨(by decide : 2 = instrLength (opcode .push)), rfl, (by decide : cntField (opcode .push) ≤ 2)⟩

theorem pop (a : Byte) : Statement (Instr.pop a) :=
  ⟨(by decide : 2 = instrLength (opcode .pop)), rfl, (by decide : cntField (opcode .pop) ≤ 2)⟩

theorem prn (a : Byte) : Statement (Instr.prn a) :=
  ⟨(by decide : 2 = instrLength (opcode .prn)), rfl, (by decide : cntField (opcode .prn) ≤ 2)⟩

theorem call (a : Byte) : Statement (Instr.call a) :=
  ⟨(by decide : 2 = instrLength (opcode .call)), rfl, (by decide : cntField (opcode .call) ≤ 2)⟩

theorem jmp (a : Byte) : Statement (Instr.jmp a) :=
  ⟨(by decide : 2 = instrLength (opcode .jmp)), rfl, (by decide : cntField (opcode .jmp) ≤ 2)⟩

theorem jeq (a : Byte) : Statement (Instr.jeq a) :=
  ⟨(by decide : 2 = instrLength (opcode .jeq)), rfl, (by decide : cntField (opcode .jeq) ≤ 2)⟩

theorem jne (a : Byte) : Statement (Instr.jne a) :=
  ⟨(by decide : 2 = instrLength (opcode .jne)), rfl, (by decide : cntField (opcode .jne) ≤ 2)⟩

theorem not (a : Byte) : Statement (Instr.not a) :=
  ⟨(by decide : 2 = instrLength (opcode .not)), rfl, (by decide : cntField (opcode .not) ≤ 2)⟩

theorem ldi (a imm : Byte) : Statement (Instr.ldi a imm) :=
  ⟨(by decide : 3 = instrLength (opcode .ldi)), rfl, (by decide : cntField (opcode .ldi) ≤ 2)⟩

theorem add (a b : Byte) : Statement (Instr.add a b) :=
  ⟨(by decide : 3 = instrLength (opcode .add)), rfl, (by decide : cntField (opcode .add) ≤ 2)⟩

theorem sub (a b : Byte) : Statement (Instr.sub a b) :=
  ⟨(by decide : 3 = instrLength (opcode .sub)), rfl, (by decide : cntField (opcode .sub) ≤ 2)⟩

theorem mul (a b : Byte) : Statement (Instr.mul a b) :=
  ⟨(by decide : 3 = instrLength (opcode .mul)), rfl, (by decide : cntField (opcode .mul) ≤ 2)⟩

theorem mod (a b : Byte) : Statement (Instr.mod a b) :=
  ⟨(by decide : 3 = instrLength (opcode .mod)), rfl, (by decide : cntField (opcode .mod) ≤ 2)⟩

theorem cmp (a b : Byte) : Statement (Instr.cmp a b) :=
  ⟨(by decide : 3 = instrLength (opcode .cmp)), rfl, (by decide : cntField (opcode .cmp) ≤ 2)⟩

theorem and (a b : Byte) : Statement (Instr.and a b) :=
  ⟨(by decide : 3 = instrLength (opcode .and)), rfl, (by decide : cntField (opcode .and) ≤ 2)⟩

theorem or (a b : Byte) : Statement (Instr.or a b) :=
  ⟨(by decide : 3 = instrLength (opcode .or)), rfl, (by decide : cntField (opcode .or) ≤ 2)⟩

theorem xor (a b : Byte) : Statement (Instr.xor a b) :=
  ⟨(by decide : 3 = instrLength (opcode .xor)), rfl, (by decide : cntField (opcode .xor) ≤ 2)⟩

theorem shl (a b : Byte) : Statement (Instr.shl a b) :=
  ⟨(by decide : 3 = instrLength (opcode .shl)), rfl, (by decide : cntField (opcode .shl) ≤ 2)⟩

theorem shr (a b : Byte) : Statement (Instr.shr a b) :=
  ⟨(by decide : 3 = instrLength (opcode .shr)), rfl, (by decide : cntField (opcode .shr) ≤ 2)⟩

end Sys2Proof.Laws.EncodedShape
end

