-- ==== Sys2Proof/Laws/Step.lean ====
section
/-! SUPPORT. Everything an instruction can do, said once: if `exec i s` answers `next t`, then `Effect i s t`. Facts about all
instructions are case analyses of `Effect`, not unfoldings of the 21 meanings. -/

namespace Sys2Proof.Machine

/-- The ways an instruction ends in a next state. -/
inductive Effect : Instr → State → State → Prop where
  /-- A register-index byte above 7. -/
  | badIndex (i : Instr) (s : State) (b : Byte) (hi : b ∈ i.operands) (h : 7 < b.toNat) :
      Effect i s (s.takeFault .registerIndexOutOfRange (encode i) b.toNat)
  /-- MOD by 0. -/
  | divideByZero (a b : Reg) (s : State) (h : s.reg b = 0) :
      Effect (.mod (regByte a) (regByte b)) s (s.takeFault .divideByZero (encode (.mod (regByte a) (regByte b))) 0xA4)
  /-- CALL with a return address that does not fit. -/
  | valueOutOfRange (a : Reg) (s : State) (h : 0xFF < s.afterTwo) :
      Effect (.call (regByte a)) s (s.takeFault .valueOutOfRange (encode (.call (regByte a))) s.afterTwo)
  /-- A one-operand write of a named register: NOT. -/
  | writeNot (a : Reg) (s : State) : Effect (.not (regByte a)) s ((s.setReg a (aluNot (s.reg a))).advance 0x69)
  /-- LDI. -/
  | writeLdi (a : Reg) (imm : Byte) (s : State) : Effect (.ldi (regByte a) imm) s ((s.setReg a imm).advance 0x82)
  /-- A two-operand ALU operation that writes its first register. -/
  | writeTwo (mk : Byte → Byte → Instr) (a b : Reg) (v : Byte) (s : State)
      (hmk : mk ∈ [Instr.add, Instr.sub, Instr.mul, Instr.mod, Instr.and, Instr.or, Instr.xor, Instr.shl, Instr.shr]) :
      Effect (mk (regByte a) (regByte b)) s ((s.setReg a v).advance (mk (regByte a) (regByte b)).ir)
  /-- CMP. -/
  | compare (a b : Reg) (s : State) :
      Effect (.cmp (regByte a) (regByte b)) s ((s.setFl (compareFlags (s.reg a) (s.reg b))).advance 0xA7)
  /-- PRN. -/
  | print (a : Reg) (s : State) : Effect (.prn (regByte a)) s ((s.emit (s.reg a)).advance 0x47)
  /-- PUSH. -/
  | push (a : Reg) (s : State) : Effect (.push (regByte a)) s ((s.decSp.storeAtSp (s.decSp.reg a)).advance 0x45)
  /-- POP. -/
  | pop (a : Reg) (s : State) : Effect (.pop (regByte a)) s ((s.setReg a s.loadAtSp).incSp.advance 0x46)
  /-- CALL. -/
  | call (a : Reg) (s : State) (h : s.afterTwo ≤ 0xFF) :
      Effect (.call (regByte a)) s
        ((s.decSp.storeAtSp (BitVec.ofNat 8 s.afterTwo)).jumpTo (zext16 (s.decSp.reg a)))
  /-- RET. -/
  | ret (s : State) : Effect .ret s (s.incSp.jumpTo (zext16 s.loadAtSp))
  /-- JMP. -/
  | jmp (a : Reg) (s : State) : Effect (.jmp (regByte a)) s (s.jumpTo (zext16 (s.reg a)))
  /-- JEQ. -/
  | jeq (a : Reg) (s : State) :
      Effect (.jeq (regByte a)) s (s.jumpTo (if s.flE then zext16 (s.reg a) else BitVec.ofNat 16 s.afterTwo))
  /-- JNE. -/
  | jne (a : Reg) (s : State) :
      Effect (.jne (regByte a)) s (s.jumpTo (if s.flE then BitVec.ofNat 16 s.afterTwo else zext16 (s.reg a)))
  /-- HLT. -/
  | hlt (s : State) : Effect .hlt s s.halt

/-- The effect of an instruction of the shape `aluTwo`. -/
theorem effect_of_aluTwo {mk : Byte → Byte → Instr} {f : Byte → Byte → Byte} {opa opb : Byte} {s t : State}
    (hmk : mk ∈ [Instr.add, Instr.sub, Instr.mul, Instr.mod, Instr.and, Instr.or, Instr.xor, Instr.shl, Instr.shr])
    (hi : (mk opa opb).operands = [opa, opb])
    (h : aluTwo mk f opa opb s = .next t) : Effect (mk opa opb) s t := by
  rcases aluTwo_cases h with ⟨a, b, rfl, rfl, rfl⟩ | ⟨b, hb, h7, rfl⟩
  · exact .writeTwo mk a b _ s hmk
  · exact .badIndex _ s b (hi ▸ hb) h7

/-- The effect of an instruction with one register operand, given what it does with a register. -/
theorem effect_of_withReg {i : Instr} {opa : Byte} {s t : State} {go : Reg → Outcome} (hi : opa ∈ i.operands)
    (hgo : ∀ r, opa = regByte r → go r = .next t → Effect i s t)
    (h : withReg i opa s go = .next t) : Effect i s t := by
  rcases withReg_cases h with ⟨r, hr, h⟩ | ⟨h7, h⟩
  · exact hgo r hr h.symm
  · injection h with h
    subst h
    exact .badIndex _ s _ hi h7

/-- The effect of an instruction with two register operands, given what it does with two registers. -/
theorem effect_of_withRegs {i : Instr} {opa opb : Byte} {s t : State} {go : Reg → Reg → Outcome} (hi : opa ∈ i.operands)
    (hi' : opb ∈ i.operands)
    (hgo : ∀ a b, opa = regByte a → opb = regByte b → go a b = .next t → Effect i s t)
    (h : withRegs i opa opb s go = .next t) : Effect i s t :=
  effect_of_withReg hi (fun a ha h => effect_of_withReg hi' (fun b hb h => hgo a b ha hb h) h) h

/-- EVERYTHING AN INSTRUCTION CAN DO. -/
theorem effect_of_exec {i : Instr} {s t : State} (h : exec i s = .next t) : Effect i s t := by
  cases i with
  | hlt => injection h with h; subst h; exact .hlt s
  | ret => injection h with h; subst h; exact .ret s
  | push a =>
    refine effect_of_withReg (by simp [Instr.operands]) (fun r hr g => ?_) h
    injection g with g; subst hr g; exact .push r s
  | pop a =>
    refine effect_of_withReg (by simp [Instr.operands]) (fun r hr g => ?_) h
    injection g with g; subst hr g; exact .pop r s
  | prn a =>
    refine effect_of_withReg (by simp [Instr.operands]) (fun r hr g => ?_) h
    injection g with g; subst hr g; exact .print r s
  | call a =>
    refine effect_of_withReg (by simp [Instr.operands]) (fun r hr g => ?_) h
    subst hr
    by_cases hv : s.afterTwo > 0xFF
    · rw [if_pos hv] at g
      injection g with g; subst g; exact .valueOutOfRange r s hv
    · rw [if_neg hv] at g
      injection g with g; subst g; exact .call r s (by omega)
  | jmp a =>
    refine effect_of_withReg (by simp [Instr.operands]) (fun r hr g => ?_) h
    injection g with g; subst hr g; exact .jmp r s
  | jeq a =>
    refine effect_of_withReg (by simp [Instr.operands]) (fun r hr g => ?_) h
    subst hr
    have e := Effect.jeq r s
    by_cases hf : s.flE = true
    · simp only [hf, if_true] at g e
      injection g with g; subst g; exact e
    · simp only [hf, if_false, Bool.false_eq_true] at g e
      injection g with g; subst g; exact e
  | jne a =>
    refine effect_of_withReg (by simp [Instr.operands]) (fun r hr g => ?_) h
    subst hr
    have e := Effect.jne r s
    by_cases hf : s.flE = true
    · simp only [hf, if_true] at g e
      injection g with g; subst g; exact e
    · simp only [hf, if_false, Bool.false_eq_true] at g e
      injection g with g; subst g; exact e
  | not a =>
    refine effect_of_withReg (by simp [Instr.operands]) (fun r hr g => ?_) h
    injection g with g; subst hr g; exact .writeNot r s
  | ldi a imm =>
    refine effect_of_withReg (by simp [Instr.operands]) (fun r hr g => ?_) h
    injection g with g; subst hr g; exact .writeLdi r imm s
  | cmp a b =>
    refine effect_of_withRegs (by simp [Instr.operands]) (by simp [Instr.operands]) (fun ra rb ha hb g => ?_) h
    injection g with g; subst ha hb g; exact .compare ra rb s
  | mod a b =>
    refine effect_of_withRegs (by simp [Instr.operands]) (by simp [Instr.operands]) (fun ra rb ha hb g => ?_) h
    subst ha hb
    by_cases hz : s.reg rb = 0
    · rw [if_pos hz] at g
      injection g with g; subst g; exact .divideByZero ra rb s hz
    · rw [if_neg hz] at g
      injection g with g; subst g; exact .writeTwo Instr.mod ra rb _ s (by simp)
  | add a b => exact effect_of_aluTwo (mk := Instr.add) (by simp) rfl h
  | sub a b => exact effect_of_aluTwo (mk := Instr.sub) (by simp) rfl h
  | mul a b => exact effect_of_aluTwo (mk := Instr.mul) (by simp) rfl h
  | and a b => exact effect_of_aluTwo (mk := Instr.and) (by simp) rfl h
  | or a b => exact effect_of_aluTwo (mk := Instr.or) (by simp) rfl h
  | xor a b => exact effect_of_aluTwo (mk := Instr.xor) (by simp) rfl h
  | shl a b => exact effect_of_aluTwo (mk := Instr.shl) (by simp) rfl h
  | shr a b => exact effect_of_aluTwo (mk := Instr.shr) (by simp) rfl h

/-! ### The step -/

/-- The length of an encoding is the one its opcode byte says. -/
theorem encode_length (i : Instr) : (encode i).length = instrLength i.ir := by
  cases i with
  | hlt => exact Laws.EncodedShape.hlt.1
  | ret => exact Laws.EncodedShape.ret.1
  | push a => exact (Laws.EncodedShape.push a).1
  | pop a => exact (Laws.EncodedShape.pop a).1
  | prn a => exact (Laws.EncodedShape.prn a).1
  | call a => exact (Laws.EncodedShape.call a).1
  | jmp a => exact (Laws.EncodedShape.jmp a).1
  | jeq a => exact (Laws.EncodedShape.jeq a).1
  | jne a => exact (Laws.EncodedShape.jne a).1
  | not a => exact (Laws.EncodedShape.not a).1
  | ldi a imm => exact (Laws.EncodedShape.ldi a imm).1
  | add a b => exact (Laws.EncodedShape.add a b).1
  | sub a b => exact (Laws.EncodedShape.sub a b).1
  | mul a b => exact (Laws.EncodedShape.mul a b).1
  | mod a b => exact (Laws.EncodedShape.mod a b).1
  | cmp a b => exact (Laws.EncodedShape.cmp a b).1
  | and a b => exact (Laws.EncodedShape.and a b).1
  | or a b => exact (Laws.EncodedShape.or a b).1
  | xor a b => exact (Laws.EncodedShape.xor a b).1
  | shl a b => exact (Laws.EncodedShape.shl a b).1
  | shr a b => exact (Laws.EncodedShape.shr a b).1

theorem Memory.fetchByte_eq_some {c : Config} {m : Memory} {a : Nat} {v : Byte} (h : Memory.fetchByte c m a = some v) :
    a < c.memCells ∧ Memory.read m a = v := by
  unfold Memory.fetchByte at h
  split at h
  · cases h; exact ⟨‹_›, rfl⟩
  · cases h

/-- A fetched instruction lies whole inside memory, and its encoding is what lies there. -/
theorem State.fetch_ok {c : Config} {s : State} {i : Instr} (h : s.fetch c = .ok i) :
    s.pc.toNat + (encode i).length ≤ c.memCells ∧
      ∀ k, (hk : k < (encode i).length) → Memory.read s.mem (s.pc.toNat + k) = (encode i)[k] := by
  rcases decodeFrom_cases h with ⟨_, h⟩ | ⟨_, _, _, _, h⟩ | ⟨_, _, _, _, h⟩ | ⟨_, _, _, _, _, _, h⟩ |
    ⟨m, a, b, g0, g1, g2, h⟩
  · cases h
  · cases h
  · cases h
  · cases h
  · cases h
    have k0 := Memory.fetchByte_eq_some g0
    cases m
    case hlt | ret =>
      refine ⟨by simp [encode, assemble, Instr.operands]; omega, fun k hk => ?_⟩
      have : k = 0 := by simpa [encode, assemble, Instr.operands] using hk
      subst this; exact k0.2
    case push | pop | prn | call | jmp | jeq | jne | not =>
      have k1 := Memory.fetchByte_eq_some (g1 (by decide))
      refine ⟨by simp [encode, assemble, Instr.operands]; omega, fun k hk => ?_⟩
      have : k < 2 := by simpa [encode, assemble, Instr.operands] using hk
      match k, this with
      | 0, _ => exact k0.2
      | 1, _ => exact k1.2
    all_goals
      have k1 := Memory.fetchByte_eq_some (g1 (by decide))
      have k2 := Memory.fetchByte_eq_some (g2 (by decide))
      refine ⟨by simp [encode, assemble, Instr.operands]; omega, fun k hk => ?_⟩
      have : k < 3 := by simpa [encode, assemble, Instr.operands] using hk
      match k, this with
      | 0, _ => exact k0.2
      | 1, _ => exact k1.2
      | 2, _ => exact k2.2

theorem Memory.fetchByte_eq_none {c : Config} {m : Memory} {a : Nat} (h : Memory.fetchByte c m a = none) :
    c.memCells ≤ a := by
  unfold Memory.fetchByte at h
  split at h
  · cases h
  · omega

/-- Everything a fetch that fails can report: no opcode byte, an opcode byte that is not recognised, or the first operand
byte that does not exist, which lies just past the last cell. -/
theorem State.fetch_error {c : Config} {s : State} {e : DecodeError} (h : s.fetch c = .error e) :
    (c.memCells ≤ s.pc.toNat ∧ e = .noOpcode) ∨
    (s.pc.toNat < c.memCells ∧ recognise (Memory.read s.mem s.pc.toNat) = .error e) ∨
    (∃ m, Memory.read s.mem s.pc.toNat = opcode m ∧ 1 ≤ cntField (opcode m) ∧ s.pc.toNat + 1 = c.memCells ∧
      e = .missingOperand [opcode m]) ∨
    (∃ m, Memory.read s.mem s.pc.toNat = opcode m ∧ cntField (opcode m) = 2 ∧ s.pc.toNat + 2 = c.memCells ∧
      e = .missingOperand [opcode m, Memory.read s.mem (s.pc.toNat + 1)]) := by
  rcases decodeFrom_cases h with ⟨g0, h⟩ | ⟨ir, _, g0, hr, h⟩ | ⟨m, g0, h1, g1, h⟩ | ⟨m, _, g0, h2, g1, g2, h⟩ |
    ⟨_, _, _, _, _, _, h⟩ <;> cases h
  · exact .inl ⟨Memory.fetchByte_eq_none g0, rfl⟩
  · have k0 := Memory.fetchByte_eq_some g0
    exact .inr (.inl ⟨k0.1, (congrArg recognise k0.2).trans hr⟩)
  · have k0 := Memory.fetchByte_eq_some g0
    have k1 := Memory.fetchByte_eq_none g1
    exact .inr (.inr (.inl ⟨m, k0.2, h1, by omega, rfl⟩))
  · have k0 := Memory.fetchByte_eq_some g0
    have k1 := Memory.fetchByte_eq_some g1
    have k2 := Memory.fetchByte_eq_none g2
    exact .inr (.inr (.inr ⟨m, k0.2, h2, by omega, by rw [k1.2]⟩))

/-- EVERYTHING A STEP CAN DO: from a running state, the effect of the instruction fetched, or a fetch fault. -/
theorem stepWith_cases {c : Config} {s t : State} (h : stepWith c s = .next t) :
    s.run = .running ∧
      ((∃ i, s.fetch c = .ok i ∧ Effect i s t) ∨ ∃ e, s.fetch c = .error e ∧ t = s.takeFetchFault e) := by
  have hr := running_of_stepWith h
  refine ⟨hr, ?_⟩
  rcases stepWith_running (c := c) hr with ⟨i, hf, he⟩ | ⟨e, hf, he⟩
  · exact .inl ⟨i, hf, effect_of_exec (he ▸ h)⟩
  · rw [he] at h
    injection h with h
    exact .inr ⟨e, hf, h.symm⟩

end Sys2Proof.Machine
end

