-- ==== Sys2Proof/Tests/Slice0.lean ====
section
/-! SUPPORT. Tests: the WellFormed smoke test, every constructor decoded from a word written out from spec 30_encoding.md rule
R86, single steps taken from the vectors of spec 95_test_vectors.md (the vector's number stands in the docstring; the expected
values are the spec's), and a witness for the hypotheses of every statement that has some. -/

namespace Sys2Proof.Tests

open Sys2Proof.Machine Sys2Proof.Claims

/-! ### Helpers -/

/-- The reset state with these bytes in memory at address `a` and `pc` there (the conventions of 95_test_vectors.md). -/
def at_ (a : Nat) (bytes : List Byte) : State :=
  { State.reset with pc := BitVec.ofNat 16 a, mem := Memory.writeBytes [] a bytes }

/-- The state with one more byte of memory. -/
def poke (s : State) (a : Nat) (v : Byte) : State := { s with mem := Memory.write s.mem a v }

/-- The outcome is a next state with the property. -/
def nextHas (o : Outcome) (p : State → Bool) : Bool :=
  match o with
  | .next t => p t
  | .fault _ => false
  | .refused _ => false

/-- The outcome is a next state at the error exit with this cause code and `info.value`, all else as in `s`. -/
def faultsWith (o : Outcome) (s : State) (code value : Nat) : Bool :=
  nextHas o (fun t =>
    match t.run with
    | .faulted cause info =>
      decide (cause.code = code ∧ info.value = value ∧ info.pc = s.pc ∧ info.regs = s.x) &&
        decide ({ t with run := s.run } = s)
    | .running => false
    | .halted => false)

/-- A 256-cell machine, the other capacity the source names (rule R6). -/
def small : Config where
  memCells := 256

/-! ### WellFormed: each check refuses an ill-formed term -/

theorem test_wellFormed_accepts : ([.hlt, .ret, .push 7, .ldi 7 255, .add 0 7, .not 7] : List Instr).all
    Instr.wellFormed = true := by decide

theorem test_wellFormed_refuses_one_register :
    ([.push 8, .pop 8, .prn 8, .call 8, .jmp 8, .jeq 8, .jne 8, .not 255] : List Instr).any Instr.wellFormed = false := by
  decide

theorem test_wellFormed_refuses_first_register :
    ([.ldi 8 0, .add 8 0, .sub 8 0, .mul 8 0, .mod 8 0, .cmp 8 0, .and 8 0, .or 8 0, .xor 8 0, .shl 8 0, .shr 8 0] :
      List Instr).any Instr.wellFormed = false := by decide

theorem test_wellFormed_refuses_second_register :
    ([.add 0 8, .sub 0 8, .mul 0 8, .mod 0 8, .cmp 0 8, .and 0 8, .or 0 8, .xor 0 8, .shl 0 8, .shr 0 8] :
      List Instr).any Instr.wellFormed = false := by decide

/-! ### Decoding: words written out bit by bit from rule R86 -/

theorem test_decode_system_and_return :
    decode [0b00000001, 0xFF] = .ok (.hlt, [0xFF]) ∧ decode [0b00010001] = .ok (.ret, []) := by decide

theorem test_decode_stack :
    decode [0b01000101, 0b00000101] = .ok (.push 5, []) ∧ decode [0b01000110, 0b00000110] = .ok (.pop 6, []) := by decide

theorem test_decode_load_and_output :
    decode [0b10000010, 0b00000011, 0b11111111] = .ok (.ldi 3 255, []) ∧
    decode [0b01000111, 0b00000010] = .ok (.prn 2, []) := by decide

theorem test_decode_control :
    decode [0b01010000, 0b00000001] = .ok (.call 1, []) ∧ decode [0b01010100, 0b00000010] = .ok (.jmp 2, []) ∧
    decode [0b01010101, 0b00000011] = .ok (.jeq 3, []) ∧ decode [0b01010110, 0b00000100] = .ok (.jne 4, []) := by decide

theorem test_decode_alu_arithmetic :
    decode [0b10100000, 0b00000001, 0b00000010] = .ok (.add 1 2, []) ∧
    decode [0b10100001, 0b00000001, 0b00000010] = .ok (.sub 1 2, []) ∧
    decode [0b10100010, 0b00000001, 0b00000010] = .ok (.mul 1 2, []) ∧
    decode [0b10100100, 0b00000001, 0b00000010] = .ok (.mod 1 2, []) ∧
    decode [0b10100111, 0b00000001, 0b00000010] = .ok (.cmp 1 2, []) := by decide

theorem test_decode_alu_bitwise :
    decode [0b10101000, 0b00000001, 0b00000010] = .ok (.and 1 2, []) ∧
    decode [0b10101010, 0b00000001, 0b00000010] = .ok (.or 1 2, []) ∧
    decode [0b10101011, 0b00000001, 0b00000010] = .ok (.xor 1 2, []) ∧
    decode [0b01101001, 0b00000111, 0b00001001] = .ok (.not 7, [0b00001001]) ∧
    decode [0b10101100, 0b00000001, 0b00000010] = .ok (.shl 1 2, []) ∧
    decode [0b10101101, 0b00000001, 0b00000010] = .ok (.shr 1 2, []) := by decide

theorem test_decode_refuses_by_name :
    decode [] = .error .noOpcode ∧ decode [0x00] = .error (.invalidInstruction 0x00) ∧
    decode [0xC1, 0, 0] = .error (.invalidInstruction 0xC1) ∧
    decode [0xA3, 0, 1] = .error (.unsupportedALUOperation 0xA3) ∧ decode [0x47] = .error (.missingOperand [0x47]) ∧
    decode [0x82, 5] = .error (.missingOperand [0x82, 5]) := by decide

/-- The host's word numbering: byte 0 is the low byte, and bits above `nbits` are 0. -/
theorem test_decode_table_word :
    decodeTableWord 24 0x050282 = some (.ldi 2 5) ∧ decodeTableWord 8 0xFFFFA0 = some (.add 0 0) ∧
    decodeTableWord 8 0x00 = none := by decide

theorem test_withFetchWord_runs_the_word :
    nextHas (step (State.reset.withFetchWord 24 0x080082)) (fun t => decide (t.reg 0 = 8 ∧ t.pc = 3)) = true := by decide

/-! ### Single steps from the spec's vectors -/

/-- V3 and V6. -/
theorem test_add : nextHas (step (((at_ 0x10 [0xA0, 0, 1]).setReg 0 0xFF).setReg 1 0xFF))
      (fun t => decide (t.reg 0 = 0xFE ∧ t.pc = 0x13 ∧ t.fl = 0)) = true ∧
    nextHas (step ((at_ 0x10 [0xA0, 7, 0]).setReg 0 4)) (fun t => decide (t.reg 7 = 0xF8)) = true := by decide

/-- V9. -/
theorem test_sub : nextHas (step (((at_ 0x10 [0xA1, 0, 1]).setReg 0 3).setReg 1 5))
    (fun t => decide (t.reg 0 = 0xFE ∧ t.reg 1 = 5 ∧ t.pc = 0x13)) = true := by decide

/-- V14. -/
theorem test_mul : nextHas (step (((at_ 0x10 [0xA2, 4, 5]).setReg 4 0x2C).setReg 5 0x64))
    (fun t => decide (t.reg 4 = 0x30 ∧ t.pc = 0x13)) = true := by decide

/-- V16 and V22. -/
theorem test_mod : nextHas (step (((at_ 0x10 [0xA4, 4, 6]).setReg 4 0x30).setReg 6 7))
      (fun t => decide (t.reg 4 = 6 ∧ t.pc = 0x13)) = true ∧
    faultsWith (step ((at_ 0x10 [0xA4, 0, 1]).setReg 0 9)) ((at_ 0x10 [0xA4, 0, 1]).setReg 0 9) 5 0xA4 = true := by decide

/-- V26 and V27: unsigned, and the old flags are cleared. -/
theorem test_cmp : nextHas (step ((((at_ 0x10 [0xA7, 0, 1]).setReg 0 0xC8).setReg 1 0x64).setFl 4))
      (fun t => decide (t.fl = 2 ∧ t.pc = 0x13)) = true ∧
    nextHas (step (((at_ 0x10 [0xA7, 0, 1]).setReg 1 0xFF).setFl 1)) (fun t => decide (t.fl = 4)) = true := by decide

/-- V30, V33 and V36. -/
theorem test_and_or_xor :
    nextHas (step (((at_ 0x10 [0xA8, 0, 1]).setReg 0 0xF0).setReg 1 0x3C)) (fun t => decide (t.reg 0 = 0x30)) = true ∧
    nextHas (step (((at_ 0x10 [0xAA, 0, 2]).setReg 0 0x30).setReg 2 0xF0)) (fun t => decide (t.reg 0 = 0xF0)) = true ∧
    nextHas (step (((at_ 0x10 [0xAB, 0, 1]).setReg 0 0xF0).setReg 1 0x3C)) (fun t => decide (t.reg 0 = 0xCC)) = true := by
  decide

/-- V42: the byte after the operand is no operand. -/
theorem test_not : nextHas (step ((at_ 0x10 [0x69, 0, 9]).setReg 0 0x0F))
    (fun t => decide (t.reg 0 = 0xF0 ∧ t.pc = 0x12)) = true := by decide

/-- V46 and V47. -/
theorem test_shl : nextHas (step (((at_ 0x10 [0xAC, 0, 1]).setReg 0 1).setReg 1 7))
      (fun t => decide (t.reg 0 = 0x80)) = true ∧
    nextHas (step (((at_ 0x10 [0xAC, 0, 1]).setReg 0 0xFF).setReg 1 8)) (fun t => decide (t.reg 0 = 0)) = true := by decide

/-- V55 and V54. -/
theorem test_shr : nextHas (step (((at_ 0x10 [0xAD, 0, 1]).setReg 0 0x81).setReg 1 1))
      (fun t => decide (t.reg 0 = 0x40)) = true ∧
    nextHas (step (((at_ 0x10 [0xAD, 0, 1]).setReg 0 0xFF).setReg 1 0xC8)) (fun t => decide (t.reg 0 = 0)) = true := by decide

/-- V58 and V63. -/
theorem test_ldi_prn : nextHas (step (at_ 0x10 [0x82, 7, 0x80])) (fun t => decide (t.reg 7 = 0x80 ∧ t.pc = 0x13)) = true ∧
    nextHas (step (at_ 0x10 [0x47, 7])) (fun t => decide (t.out = [244] ∧ t.pc = 0x12)) = true := by decide

/-- V65. -/
theorem test_hlt : nextHas (step (((at_ 0x20 [0x01, 0xFF, 0xFF]).setReg 1 7).setFl 2))
    (fun t => decide (t.run = .halted ∧ t.pc = 0x20 ∧ t.fl = 2 ∧ t.reg 1 = 7)) = true := by decide

/-- V68 and V69. -/
theorem test_push : nextHas (step (((at_ 0x10 [0x45, 0]).setReg 0 0x5A).setReg 7 0))
      (fun t => decide (t.reg 7 = 0xFF ∧ Memory.read t.mem 0xFF = 0x5A ∧ t.pc = 0x12)) = true ∧
    nextHas (step (at_ 0x10 [0x45, 7])) (fun t => decide (t.reg 7 = 0xF3 ∧ Memory.read t.mem 0xF3 = 0xF3)) = true := by decide

/-- V73 and V74. -/
theorem test_pop : nextHas (step (poke ((at_ 0x10 [0x46, 0]).setReg 7 0xFF) 0xFF 0x77))
      (fun t => decide (t.reg 0 = 0x77 ∧ t.reg 7 = 0 ∧ t.pc = 0x12)) = true ∧
    nextHas (step (poke ((at_ 0x10 [0x46, 7]).setReg 7 0xF3) 0xF3 0x30)) (fun t => decide (t.reg 7 = 0x31)) = true := by decide

/-- V77 and V78. -/
theorem test_call : nextHas (step (at_ 0x20 [0x50, 7]))
      (fun t => decide (t.reg 7 = 0xF3 ∧ Memory.read t.mem 0xF3 = 0x22 ∧ t.pc = 0xF3)) = true ∧
    nextHas (step ((at_ 0xFD [0x50, 0]).setReg 0 0x40))
      (fun t => decide (Memory.read t.mem 0xF3 = 0xFF ∧ t.pc = 0x40)) = true := by decide

/-- V79 and V80. -/
theorem test_call_faults :
    faultsWith (step ((at_ 0xFE [0x50, 0]).setReg 0 0x40)) ((at_ 0xFE [0x50, 0]).setReg 0 0x40) 6 0x100 = true ∧
    faultsWith (step (at_ 0x1234 [0x50, 0])) (at_ 0x1234 [0x50, 0]) 6 0x1236 = true := by decide

/-- V84. -/
theorem test_ret : nextHas (step (poke ((at_ 0x40 [0x11]).setReg 7 0xFF) 0xFF 0x99))
    (fun t => decide (t.reg 7 = 0 ∧ t.pc = 0x99)) = true := by decide

/-- V87. -/
theorem test_jmp : nextHas (step (at_ 0x50 [0x54, 7])) (fun t => decide (t.pc = 0xF4)) = true := by decide

/-- V88 and V96. -/
theorem test_jeq : nextHas (step (((at_ 0x0C [0x55, 2]).setReg 2 0x0E).setFl 1)) (fun t => decide (t.pc = 0x0E)) = true ∧
    nextHas (step ((at_ 0x1000 [0x55, 2]).setReg 2 0x0E)) (fun t => decide (t.pc = 0x1002)) = true := by decide

/-- V93 and V94. -/
theorem test_jne : nextHas (step (((at_ 0x18 [0x56, 4]).setReg 4 0x0F).setFl 2)) (fun t => decide (t.pc = 0x0F)) = true ∧
    nextHas (step (((at_ 0x18 [0x56, 4]).setReg 4 0x0F).setFl 1)) (fun t => decide (t.pc = 0x1A ∧ t.fl = 1)) = true := by decide

/-- V97, V98, V100 and V101 to V104. -/
theorem test_unrecognised_opcodes :
    faultsWith (step (at_ 0x10 [0x00])) (at_ 0x10 [0x00]) 1 0 = true ∧
    faultsWith (step (at_ 0x10 [0x83, 0, 1])) (at_ 0x10 [0x83, 0, 1]) 1 0x83 = true ∧
    faultsWith (step (at_ 0x10 [0xC1, 0, 0])) (at_ 0x10 [0xC1, 0, 0]) 1 0xC1 = true ∧
    faultsWith (step (at_ 0x10 [0xA3, 0, 1])) (at_ 0x10 [0xA3, 0, 1]) 2 0xA3 = true ∧
    faultsWith (step (at_ 0x10 [0x20])) (at_ 0x10 [0x20]) 2 0x20 = true ∧
    faultsWith (step (at_ 0x10 [0xE0, 0, 1])) (at_ 0x10 [0xE0, 0, 1]) 2 0xE0 = true := by decide

/-- V106, V107, V108, V109, V111 and V112: the order of the index checks. -/
theorem test_register_index_faults :
    faultsWith (step (at_ 0x10 [0x82, 8, 9])) (at_ 0x10 [0x82, 8, 9]) 4 8 = true ∧
    faultsWith (step (at_ 0x10 [0xA0, 0, 8])) (at_ 0x10 [0xA0, 0, 8]) 4 8 = true ∧
    faultsWith (step (at_ 0x10 [0xA0, 9, 8])) (at_ 0x10 [0xA0, 9, 8]) 4 9 = true ∧
    faultsWith (step (at_ 0x10 [0xA4, 9, 0])) (at_ 0x10 [0xA4, 9, 0]) 4 9 = true ∧
    faultsWith (step (at_ 0x10 [0x55, 8])) (at_ 0x10 [0x55, 8]) 4 8 = true ∧
    faultsWith (step (at_ 0xFE [0x50, 8])) (at_ 0xFE [0x50, 8]) 4 8 = true := by decide

/-- V114 to V119: the end of a 256-cell memory. -/
theorem test_end_of_small_memory :
    nextHas (stepWith small (at_ 0xFF [0x01])) (fun t => decide (t.run = .halted ∧ t.pc = 0xFF)) = true ∧
    faultsWith (stepWith small (at_ 0xFF [0x47])) (at_ 0xFF [0x47]) 3 0x100 = true ∧
    faultsWith (stepWith small (at_ 0xFE [0x82, 0])) (at_ 0xFE [0x82, 0]) 3 0x100 = true ∧
    nextHas (stepWith small (at_ 0xFE [0x47, 0])) (fun t => decide (t.pc = 0x100 ∧ t.run = .running)) = true ∧
    faultsWith (stepWith small (at_ 0x100 [])) (at_ 0x100 []) 3 0x100 = true ∧
    faultsWith (stepWith small (at_ 0xFF [0xA3])) (at_ 0xFF [0xA3]) 2 0xA3 = true := by decide

/-- V120 to V122: the end of the 65,280-cell memory. -/
theorem test_end_of_memory :
    nextHas (step (at_ 0xFEFF [0x01])) (fun t => decide (t.run = .halted ∧ t.pc = 0xFEFF)) = true ∧
    faultsWith (step (at_ 0xFEFE [0x82, 0])) (at_ 0xFEFE [0x82, 0]) 3 0xFF00 = true ∧
    faultsWith (step (at_ 0xFF00 [])) (at_ 0xFF00 []) 3 0xFF00 = true := by decide

/-- The latches `ir`, `opa` and `opb` that the step's report shows. -/
def reportedLatches (o : Outcome) : Option (List (Option Byte)) :=
  match o with
  | .next t =>
    match t.run with
    | .faulted _ info => some [info.ir, info.opa, info.opb]
    | .running => none
    | .halted => none
  | .fault _ => none
  | .refused _ => none

/-- Rule R35: a report shows the latches that were fetched. Worked out from rule R111: faults before the opcode, before the operands
(an unrecognised opcode, a missing first operand), before the second one, and in phase 4 with two operand bytes and with
one. -/
theorem test_report_latches :
    reportedLatches (stepWith small (at_ 0x100 [])) = some [none, none, none] ∧
    reportedLatches (step (at_ 0x10 [0xA3, 0, 1])) = some [some 0xA3, none, none] ∧
    reportedLatches (stepWith small (at_ 0xFF [0x47])) = some [some 0x47, none, none] ∧
    reportedLatches (stepWith small (at_ 0xFE [0x82, 5])) = some [some 0x82, some 5, none] ∧
    reportedLatches (step (at_ 0x10 [0x82, 8, 9])) = some [some 0x82, some 8, some 9] ∧
    reportedLatches (step (at_ 0x10 [0xA0, 0, 8])) = some [some 0xA0, some 0, some 8] ∧
    reportedLatches (step (at_ 0xFE [0x50, 3, 9])) = some [some 0x50, some 3, none] := by decide

/-- Rule R227: a trace shows a cell that does not exist as absent. -/
theorem test_trace : (State.trace small (at_ 0xFE [0x47, 5])).bytes = [some 0x47, some 5, none] := by decide

/-! ### Witnesses: a state and operands that meet the hypotheses of each statement -/

/-- The bad-index clauses of every statement about an instruction with a register operand: AddWritesSumModulo256,
SubWritesDifferenceModulo256, MulWritesProductModulo256, ModWritesRemainderOrFaultsOnZero, CmpSetsExactlyOneFlag,
AndWritesBitwiseAnd, OrWritesBitwiseOr, XorWritesBitwiseXor, NotWritesComplement, ShlShiftsLeftByWholeByte,
ShrShiftsRightLogically, LdiLoadsImmediate, PrnEmitsRegister, PushStoresBelowStackPointer, PopLoadsThenIncrements,
CallPushesReturnAddressAndJumps, JmpJumpsToRegister, JeqBranchesExactlyWhenEqual and JneBranchesExactlyWhenNotEqual: the bytes next to the boundary and the largest. The completing clauses have no hypothesis on
the operands: register 7 is the largest index. -/
theorem witness_bad_index : 7 < (8 : Byte).toNat ∧ 7 < (255 : Byte).toNat ∧ (regByte 7).toNat = 7 := by decide

theorem witness_ModWritesRemainderOrFaultsOnZero : State.reset.reg 0 = 0 ∧ State.reset.reg 7 ≠ 0 := by decide

theorem witness_CmpSetsExactlyOneFlag : State.reset.reg 0 = State.reset.reg 1 ∧
    (State.reset.reg 0).toNat < (State.reset.reg 7).toNat := by decide

theorem witness_PrnEmitsRegister :
    nextHas (exec (.prn (regByte 7)) State.reset) (fun t => decide (t.out ≠ State.reset.out)) = true := by decide

theorem witness_HltHaltsWithStateIntact :
    nextHas (stepWith hardware (at_ 0 [0x01])) (fun t => decide (t.run = .halted)) = true := by decide

/-- Also the hypothesis of PushThenPopRestoresRegisters and of ReadAfterWriteInCanonicalMemory; `SP` at its lowest value. -/
theorem witness_PushStoresBelowStackPointer : Memory.wf (State.reset.setReg 7 0).mem = true ∧
    (State.reset.setReg 7 0).decSp.stackAddr = 255 := by decide

theorem witness_PopLoadsThenIncrements : (6 : Reg) ≠ 7 ∧ (7 : Reg) = 7 := by decide

/-- Both sides of the boundary of CALL: the last address that can call and the first that cannot. -/
theorem witness_CallPushesReturnAddressAndJumps : (at_ 253 []).pc.toNat + 2 ≤ 0xFF ∧ 0xFF < (at_ 254 []).pc.toNat + 2 := by
  decide

/-- The four values of `FL` a run can hold, on both sides of the test. -/
theorem witness_JeqBranchesExactlyWhenEqual : (State.reset.setFl 1).fl.toNat % 2 = 1 ∧ State.reset.fl.toNat % 2 = 0 ∧
    (State.reset.setFl 2).fl.toNat % 2 = 0 ∧ (State.reset.setFl 4).fl.toNat % 2 = 0 := by decide

theorem witness_JneBranchesExactlyWhenNotEqual : (State.reset.setFl 4).fl.toNat % 2 = 0 ∧
    (State.reset.setFl 1).fl.toNat % 2 = 1 := by decide

/-- `u` is the state right after the CALL. -/
theorem witness_CallThenRetReturnsAfterCall : Memory.wf (at_ 253 [0x50, 1]).mem = true ∧
    (at_ 253 [0x50, 1]).pc.toNat + 2 ≤ 0xFF ∧
    ∃ t u : State, exec (.call (regByte 1)) (at_ 253 [0x50, 1]) = .next t ∧ u.reg 7 = t.reg 7 ∧
      Memory.read u.mem (t.reg 7).toNat = Memory.read t.mem (t.reg 7).toNat :=
  ⟨by decide, by decide, _, _, rfl, rfl, rfl⟩

theorem witness_DecodedBytesAreTheEncoding : decode [0xA0, 0, 7, 0x01] = .ok (.add 0 7, [0x01]) := by decide

/-- Both clauses, with the first and the last byte of each kind. -/
theorem witness_UnrecognisedOpcodesFault :
    (at_ 0 []).run = .running ∧ (at_ 0 []).pc.toNat < small.memCells ∧
    (∀ ir ∈ ([0x00, 0xDF] : List Byte), ir.toNat / 32 % 2 = 0 ∧ ir ∉ tableOpcodes ∧
      Memory.read (at_ 0 [ir]).mem (at_ 0 [ir]).pc.toNat = ir) ∧
    (∀ ir ∈ ([0x20, 0xFF] : List Byte), ir.toNat / 32 % 2 = 1 ∧ ir ∉ aluOpcodes ∧
      Memory.read (at_ 0 [ir]).mem (at_ 0 [ir]).pc.toNat = ir) := by decide

theorem witness_StepRunsDecodedInstruction : (at_ 0 [0x82, 0, 8]).run = .running ∧
    decode ((at_ 0 [0x82, 0, 8]).bytesAtPc hardware) = .ok (.ldi 0 8, []) := by decide

/-- PRN whole inside memory in its last two cells, and with its operand byte missing. -/
theorem witness_OperandFetchIsStrict :
    (∀ k, (h : k < (encode (.prn 0)).length) → (at_ 0xFE [0x47]).pc.toNat + k < small.memCells →
      Memory.read (at_ 0xFE [0x47]).mem ((at_ 0xFE [0x47]).pc.toNat + k) = (encode (.prn 0))[k]) ∧
    (at_ 0xFE [0x47]).pc.toNat + (encode (.prn 0)).length ≤ small.memCells ∧
    (∀ k, (h : k < (encode (.prn 0)).length) → (at_ 0xFF [0x47]).pc.toNat + k < small.memCells →
      Memory.read (at_ 0xFF [0x47]).mem ((at_ 0xFF [0x47]).pc.toNat + k) = (encode (.prn 0))[k]) ∧
    (at_ 0xFF [0x47]).pc.toNat < small.memCells ∧
    small.memCells < (at_ 0xFF [0x47]).pc.toNat + (encode (.prn 0)).length := by
  refine ⟨?_, by decide, ?_, by decide, by decide⟩
  · intro k h _
    match k, h with
    | 0, _ => exact (by decide : Memory.read (at_ 0xFE [0x47]).mem 0xFE = 0x47)
    | 1, _ => exact (by decide : Memory.read (at_ 0xFE [0x47]).mem 0xFF = 0)
  · intro k h hk
    match k, h, hk with
    | 0, _, _ => exact (by decide : Memory.read (at_ 0xFF [0x47]).mem 0xFF = 0x47)
    | 1, _, hk => exact absurd hk (by decide)

theorem witness_OpcodeFetchBeyondMemoryFaults : (at_ 0xFF00 []).run = .running ∧
    hardware.memCells ≤ (at_ 0xFF00 []).pc.toNat := by decide

theorem witness_StepExistsExactlyWhileRunning : State.reset.run = .running ∧ State.reset.halt.run = .halted ∧
    (State.reset.takeFault .invalidInstruction [0] 0).isFaulted := ⟨rfl, rfl, _, _, rfl⟩

theorem witness_SequentialInstructionsAdvanceByLength : (Instr.pop 7).ir.getLsbD 4 = false ∧
    ∃ t, exec (.pop (regByte 7)) State.reset = .next t ∧ t.run = .running := ⟨by decide, _, rfl, rfl⟩

/-- Also the hypotheses of StepKeepsStateSound but for soundness, which `witness_sound` gives. -/
theorem witness_NextPcFollowsTable : small.legal ∧
    ∃ t, stepWith small (at_ 0 [0x54, 7]) = .next t ∧ t.run = .running := ⟨by decide, _, rfl, rfl⟩

/-- Sequential advance from below 256 to 256; a halt above 256; and the last sequential advance there can be, to the end of
the largest memory. -/
theorem witness_OnlySequentialAdvanceReaches256 : hardware.legal ∧ ({ memCells := 65533 } : Config).legal ∧
    nextHas (stepWith hardware (at_ 0xFD [0x82, 0, 0])) (fun t => decide (256 ≤ t.pc.toNat)) = true ∧
    nextHas (stepWith hardware (at_ 0x100 [0x01])) (fun t => decide (t.run = .halted ∧ 256 ≤ t.pc.toNat)) = true ∧
    State.fetch { memCells := 65533 } (at_ 65530 [0x82, 0, 0]) = .ok (.ldi 0 0) ∧ (Instr.ldi 0 0).ir.getLsbD 4 = false ∧
    nextHas (stepWith { memCells := 65533 } (at_ 65530 [0x82, 0, 0]))
      (fun t => decide (t.run = .running ∧ t.pc.toNat = 65533)) = true :=
  ⟨by decide, by decide, by decide, by decide, rfl, by decide, by decide⟩

/-- At the last address the statement speaks of, for the smaller memory. -/
theorem witness_CapacityMattersOnlyAtTheEnd : (at_ 253 []).pc.toNat + 2 < small.memCells ∧
    (at_ 253 []).pc.toNat + 2 < hardware.memCells := by decide

/-- Each cause of the order of checks, and none, is found in some state (vectors V118, V101, V97, V115, V116, V106, V107, V22,
V79, V56). -/
theorem witness_StepReportsTheFirstFault :
    firstFault small (at_ 0x100 []) = some (.addressOutOfRange, 0x100) ∧
    firstFault small (at_ 0x10 [0xA3]) = some (.unsupportedALUOperation, 0xA3) ∧
    firstFault small (at_ 0x10 [0x00]) = some (.invalidInstruction, 0x00) ∧
    firstFault small (at_ 0xFF [0x47]) = some (.addressOutOfRange, 0x100) ∧
    firstFault small (at_ 0xFE [0x82, 0]) = some (.addressOutOfRange, 0x100) ∧
    firstFault small (at_ 0x10 [0x82, 8, 9]) = some (.registerIndexOutOfRange, 8) ∧
    firstFault small (at_ 0x10 [0xA0, 0, 8]) = some (.registerIndexOutOfRange, 8) ∧
    firstFault small (at_ 0x10 [0xA4, 0, 1]) = some (.divideByZero, 0xA4) ∧
    firstFault small (at_ 0xFE [0x50, 0]) = some (.valueOutOfRange, 0x100) ∧
    firstFault small (at_ 0x00 [0x82, 0, 8]) = none := by decide

theorem witness_FaultsArePrecise : ∃ t info, stepWith small (at_ 0x10 [0x00]) = .next t ∧
    t.run = .faulted .invalidInstruction info := ⟨_, _, rfl, rfl⟩

theorem witness_OnlyCmpWritesFlags :
    nextHas (exec (.add 0 7) State.reset) (fun _ => true) = true ∧ (∀ a b, Instr.add 0 7 ≠ .cmp a b) ∧
    nextHas (stepWith small (at_ 0x10 [0xA7, 0, 1])) (fun t => decide (t.fl ≠ (at_ 0x10 [0xA7, 0, 1]).fl)) = true :=
  ⟨by decide, fun a b h => (by cases h), by decide⟩

theorem witness_OutputOnlyGrowsAndIsNeverRead :
    nextHas (stepWith small (at_ 0x10 [0x47, 7])) (fun t => decide (t.out = [244])) = true ∧
    nextHas (stepWith small (at_ 0x10 [0x01])) (fun t => decide (t.out = [])) = true := by decide

theorem witness_OnlyNamedRegistersAndStackPointerChange :
    nextHas (exec (.ldi 0 5) State.reset) (fun t => decide (t.reg 0 ≠ State.reset.reg 0)) = true ∧
    nextHas (exec .ret State.reset) (fun t => decide (t.reg 7 ≠ State.reset.reg 7)) = true := by decide

theorem witness_OnlyPushAndCallWriteMemory :
    nextHas (exec (.pop 0) State.reset) (fun _ => true) = true ∧ storesToStack (.pop 0) = false ∧
    nextHas (exec (.push 7) State.reset) (fun _ => true) = true ∧ storesToStack (.push 7) = true := by decide

/-- POP with a memory that differs outside the instruction's bytes and the cell at `SP`. -/
theorem witness_StepReadsOnlyItsBytesAndTheStackCell :
    ∃ t, stepWith small (at_ 0x10 [0x46, 0]) = .next t ∧
    (∀ k, k ≤ cntField (Memory.read (at_ 0x10 [0x46, 0]).mem (at_ 0x10 [0x46, 0]).pc.toNat) →
      Memory.read (poke (at_ 0x10 [0x46, 0]) 0x12 0x99).mem ((at_ 0x10 [0x46, 0]).pc.toNat + k) =
        Memory.read (at_ 0x10 [0x46, 0]).mem ((at_ 0x10 [0x46, 0]).pc.toNat + k)) ∧
    Memory.read (poke (at_ 0x10 [0x46, 0]) 0x12 0x99).mem (at_ 0x10 [0x46, 0]).stackAddr =
      Memory.read (at_ 0x10 [0x46, 0]).mem (at_ 0x10 [0x46, 0]).stackAddr := by
  refine ⟨_, rfl, ?_, by decide⟩
  intro k hk
  have h1 : k ≤ 1 := hk
  match k, h1 with
  | 0, _ => decide
  | 1, _ => decide

/-- PUSH to the last cell of the smaller memory (`SP` wraps from 0 to 0xFF) of a byte that is no opcode (0xFF) and of one
that lacks its operand there (0x45). -/
theorem witness_PushedByteIsFetchedAsCode : small.legal ∧ Memory.wf State.reset.mem = true ∧
    ((State.reset.setReg 7 0).decSp.stackAddr = 0xFF) ∧ (0x45 : Byte) ∈ tableOpcodes ∧ (0xFF : Byte) ∉ aluOpcodes ∧
    ∀ v : Byte, ∃ t u : State, exec (.push (regByte 0)) ((State.reset.setReg 7 0).setReg 0 v) = .next t ∧
      u.pc.toNat = 0xFF ∧ u.run = .running ∧ u.mem = t.mem :=
  ⟨by decide, rfl, by decide, by decide, by decide,
    fun _ => ⟨_, { at_ 0xFF [] with mem := _ }, rfl, rfl, rfl, rfl⟩⟩

/-- The CALL clause of PushedByteIsFetchedAsCode, at the last address that can call: CALL R7 jumps to the byte it has just
stored, so the very next fetch reads it. -/
theorem witness_PushedByteIsFetchedAsCode_call : (at_ 253 []).pc.toNat + 2 ≤ 0xFF ∧ Memory.wf (at_ 253 []).mem = true ∧
    nextHas (exec (.call (regByte 7)) (at_ 253 []))
      (fun t => decide (t.run = .running ∧ t.pc.toNat = (at_ 253 []).decSp.stackAddr)) = true := by decide

theorem witness_CanonicalMemoryIsDeterminedByItsCells :
    Memory.wf (at_ 3 [1, 0, 2]).mem = true ∧ (at_ 3 [1, 0, 2]).mem = [(3, 1), (5, 2)] := by decide

/-- An image as long as the memory is accepted (LoaderWritesTheImageAndNothingElse), one byte more is refused
(LoaderBoundsAndEmptyImage). -/
theorem witness_LoaderBounds : (List.replicate 256 (1 : Byte)).length ≤ small.memCells ∧
    small.memCells < (List.replicate 257 (1 : Byte)).length := by
  rw [List.length_replicate, List.length_replicate]; decide

/-- The ends of the range of allowed capacities. -/
theorem witness_ResetStateIsSound : ({ memCells := 256 } : Config).legal ∧ ({ memCells := 65533 } : Config).legal ∧
    hardware.legal := by decide

theorem witness_LoadedStateIsSound : ∃ s, loadImage hardware [0x01] State.reset = some s := ⟨_, rfl⟩

/-- A sound state with a byte in memory, `pc` at the end and a flag set; every field of the invariant is met. -/
theorem witness_sound : State.Sound small ((at_ 0xFE [0x47, 7]).setFl 4) where
  memCanonical := by decide
  memInside := by decide
  flLegal := by decide
  pcInside := by decide
  report := by intro cause info h; cases h

/-- A sound state at the error exit: the report is not vacuous. -/
theorem witness_sound_faulted : State.Sound small ((at_ 0xFE [0x50, 7]).takeFault .valueOutOfRange [0x50, 7] 0x100) where
  memCanonical := by decide
  memInside := by decide
  flLegal := by decide
  pcInside := by decide
  report := by 
    intro cause info h
    cases h
    exact ⟨rfl, rfl, ⟨by decide, by decide, by decide⟩, rfl, rfl, by decide, rfl, 7, rfl⟩

theorem witness_EveryRunOfEveryImageStaysSound : hardware.legal ∧
    ∃ s t, loadImage hardware [0x01] State.reset = some s ∧ Reaches hardware s t ∧ t.terminal :=
  ⟨by decide, _, _, rfl, .step .start rfl, by intro h; cases h⟩

end Sys2Proof.Tests
end

section
/-! PROOFS. The scope (spec 00_scope.md): what the memory capacity has a say in (rule R6). The capacity enters a step
through the fetch alone, and the fetch through the three bytes from `pc` on. -/

namespace Sys2Proof.Machine

/-- A fetch in range reads the cell. -/
theorem Memory.fetchByte_of_lt {c : Config} {a : Nat} (h : a < c.memCells) (m : Memory) :
    Memory.fetchByte c m a = some (Memory.read m a) :=
  if_pos h

/-- With the longest instruction, 3 bytes, inside both memories, the two fetches are equal. -/
theorem State.fetch_congr_capacity {c c' : Config} {s : State} (h : s.pc.toNat + 2 < c.memCells)
    (h' : s.pc.toNat + 2 < c'.memCells) : s.fetch c = s.fetch c' := by
  refine decodeFrom_congr fun k hk => ?_
  have hc : s.pc.toNat + k < c.memCells := by omega
  have hc' : s.pc.toNat + k < c'.memCells := by omega
  rw [Memory.fetchByte_of_lt hc, Memory.fetchByte_of_lt hc']

/-- The capacity enters a step through the fetch alone. -/
theorem stepWith_congr_fetch {c c' : Config} {s : State} (h : s.fetch c = s.fetch c') :
    stepWith c s = stepWith c' s := by
  simp only [stepWith, h]

/-- Settles O36: below both capacities the fetches are equal, and so are the steps. -/
theorem capacityMattersOnlyAtTheEnd : Obligations.CapacityMattersOnlyAtTheEnd :=
  fun _ _ _ h h' => stepWith_congr_fetch (State.fetch_congr_capacity h h')

end Sys2Proof.Machine
end

section
/-! PROOFS. The state (spec 10_state.md): the reset values (rule R36), what an instruction may do to each piece of the state,
and the invariant `State.Sound` along every run. -/

namespace Sys2Proof.Machine

/-! ### Reset (rule R36) -/

/-- Settles O48: each reset value is read off `State.reset`, the registers one by one. -/
theorem resetLeavesTheStatedValues : Obligations.ResetLeavesTheStatedValues :=
  ⟨rfl, by decide, rfl, rfl, fun _ => rfl, rfl, rfl⟩

/-- Settles O51: no cell is listed, `FL` and `pc` are 0, and `run` is no fault. -/
theorem resetStateIsSound : Obligations.ResetStateIsSound := fun _ _ =>
  { memCanonical := reset_mem_wf
    memInside := fun _ h => nomatch h
    flLegal := .inl rfl
    pcInside := Nat.zero_le _
    report := fun _ _ h => nomatch h }

/-! ### Which registers an instruction changes (rule R22) -/

/-- Writing a register changes no other. -/
theorem State.eq_of_reg_setReg_ne {s : State} {r k : Reg} {v : Byte} (h : (s.setReg r v).reg k ≠ s.reg k) : k = r := by
  by_contra hk
  exact h (State.reg_setReg_ne s v hk)

/-- An instruction with an ALU result names its first operand as the destination. -/
theorem namedDestination_of_writeTwo {mk : Byte → Byte → Instr}
    (hmk : mk ∈ [Instr.add, Instr.sub, Instr.mul, Instr.mod, Instr.and, Instr.or, Instr.xor, Instr.shl, Instr.shr])
    (a b : Byte) : Claims.namedDestination (mk a b) = some a := by
  simp only [List.mem_cons, List.not_mem_nil, or_false] at hmk
  rcases hmk with rfl | rfl | rfl | rfl | rfl | rfl | rfl | rfl | rfl <;> rfl

/-- The write column of the table of rule R22. -/
theorem Effect.changed_reg {i : Instr} {s t : State} {k : Reg} (h : Effect i s t) (hk : t.reg k ≠ s.reg k) :
    Claims.namedDestination i = some (regByte k) ∨ (k = 7 ∧ Claims.usesStackPointer i = true) := by
  cases h with
  | writeNot a | writeLdi a =>
    obtain rfl := State.eq_of_reg_setReg_ne hk
    exact .inl rfl
  | writeTwo mk a b v _ hmk =>
    obtain rfl := State.eq_of_reg_setReg_ne hk
    exact .inl (namedDestination_of_writeTwo hmk _ _)
  | push | call | ret => exact .inr ⟨State.eq_of_reg_setReg_ne hk, rfl⟩
  | pop a =>
    by_cases h7 : k = 7
    · exact .inr ⟨h7, rfl⟩
    · have hload : (s.setReg a s.loadAtSp).incSp.reg k = (s.setReg a s.loadAtSp).reg k := State.reg_setReg_ne _ _ h7
      obtain rfl := State.eq_of_reg_setReg_ne (hload ▸ hk)
      exact .inl rfl
  | _ => exact absurd rfl hk

/-- Settles O42, by cases on what the instruction did. -/
theorem onlyNamedRegistersAndStackPointerChange : Obligations.OnlyNamedRegistersAndStackPointerChange :=
  ⟨fun _ _ _ _ h hk => (effect_of_exec h).changed_reg hk, State.reg_setReg⟩

/-! ### The output stream (rule R32) -/

/-- The state with another output stream. -/
def State.withOut (s : State) (out : List Byte) : State := { s with out := out }

/-- The outcome with another output stream in its next state, if it has one. -/
def outcomeWithOut (out : List Byte) : Outcome → Outcome
  | .next t => .next (t.withOut out)
  | .fault r => .fault r
  | .refused r => .refused r

/-- The check of a register operand does not look at the output stream. -/
theorem withReg_withOut {i : Instr} {b : Byte} {s : State} {out : List Byte} {go go' : Reg → Outcome}
    (h : ∀ r, go' r = outcomeWithOut out (go r)) :
    withReg i b (s.withOut out) go' = outcomeWithOut out (withReg i b s go) := by
  unfold withReg
  cases regOf b with
  | some r => exact h r
  | none => rfl

/-- Nor does the check of two. -/
theorem withRegs_withOut {i : Instr} {opa opb : Byte} {s : State} {out : List Byte} {go go' : Reg → Reg → Outcome}
    (h : ∀ a b, go' a b = outcomeWithOut out (go a b)) :
    withRegs i opa opb (s.withOut out) go' = outcomeWithOut out (withRegs i opa opb s go) :=
  withReg_withOut fun a => withReg_withOut fun b => h a b

/-- A choice that does not look at the output stream. -/
theorem outcomeWithOut_ite {p : Prop} [Decidable p] {out : List Byte} {o₁ o₂ o₁' o₂' : Outcome}
    (h₁ : o₁' = outcomeWithOut out o₁) (h₂ : o₂' = outcomeWithOut out o₂) :
    (if p then o₁' else o₂') = outcomeWithOut out (if p then o₁ else o₂) := by
  subst h₁ h₂
  exact (apply_ite (outcomeWithOut out) p o₁ o₂).symm

/-- An instruction that prints nothing carries any output stream along unread. -/
theorem exec_withOut {i : Instr} (hi : ∀ r, i ≠ .prn (regByte r)) (s : State) (out : List Byte) :
    exec i (s.withOut out) = outcomeWithOut out (exec i s) := by
  cases i with
  | hlt | ret => rfl
  | push | pop | jmp | not | ldi => exact withReg_withOut fun _ => rfl
  | jeq | jne | call => exact withReg_withOut fun _ => outcomeWithOut_ite rfl rfl
  | prn a =>
    rcases regByte_or_bad a with ⟨r, rfl⟩ | ha
    · exact absurd rfl (hi r)
    · simp only [exec, execPrn, withReg_bad _ ha]
      rfl
  | mod => exact withRegs_withOut fun _ _ => outcomeWithOut_ite rfl rfl
  | add | sub | mul | cmp | and | or | xor | shl | shr => exact withRegs_withOut fun _ _ => rfl

/-- PRN of a register appends its value to whatever was printed before. -/
theorem exec_prn (r : Reg) (s : State) : exec (.prn (regByte r)) s = .next ((s.emit (s.reg r)).advance 0x47) :=
  withReg_regByte _ r s _

/-- A fault of the fetch carries any output stream along unread. -/
theorem State.takeFetchFault_withOut (s : State) (out : List Byte) (e : DecodeError) :
    (s.withOut out).takeFetchFault e = (s.takeFetchFault e).withOut out := by
  cases e <;> rfl

/-- A step of a running machine that does not execute PRN of a register carries any output stream along unread. -/
theorem stepWith_withOut {c : Config} {s : State} (hp : ∀ r : Reg, s.fetch c ≠ .ok (.prn (regByte r)))
    (out : List Byte) : stepWith c (s.withOut out) = outcomeWithOut out (stepWith c s) := by
  have hfetch : (s.withOut out).fetch c = s.fetch c := rfl
  have hrun : (s.withOut out).run = s.run := rfl
  unfold stepWith
  rw [hfetch, hrun]
  cases s.run with
  | halted | faulted => rfl
  | running =>
    cases hf : s.fetch c with
    | ok i => exact exec_withOut (fun r hi => hp r (hi ▸ hf)) s out
    | error e => exact congrArg _ (s.takeFetchFault_withOut out e)

/-- Settles O41: PRN of a register appends its value, and every other step carries the stream along. -/
theorem outputOnlyGrowsAndIsNeverRead : Obligations.OutputOnlyGrowsAndIsNeverRead := by
  refine ⟨rfl, fun c s t h => ?_⟩
  by_cases hp : ∃ r : Reg, s.fetch c = .ok (.prn (regByte r))
  · obtain ⟨r, hf⟩ := hp
    have hstep : ∀ out, stepWith c (s.withOut out) = exec (.prn (regByte r)) (s.withOut out) := fun out => by
      have hf' : (s.withOut out).fetch c = .ok (.prn (regByte r)) := hf
      have hr' : (s.withOut out).run = .running := (running_of_stepWith h :)
      simp only [stepWith, hf', hr']
    have ht : (s.emit (s.reg r)).advance 0x47 = t := by
      have hs := (hstep s.out).symm.trans h
      rw [exec_prn] at hs
      injection hs
    subst ht
    exact ⟨[s.reg r], .inl ⟨r, hf, rfl⟩, fun out => (hstep out).trans (exec_prn r _)⟩
  · simp only [not_exists] at hp
    refine ⟨[], .inr ⟨hp, rfl⟩, fun out => ?_⟩
    rw [List.append_nil]
    exact (stepWith_withOut hp out).trans (congrArg _ h)

/-! ### Memory, `FL` and `pc` after an instruction (rules R30, R55, R66, R121) -/

/-- Memory stays, or one cell at a data address, below 256, is written. -/
theorem Effect.mem_cases {i : Instr} {s t : State} (h : Effect i s t) :
    t.mem = s.mem ∨ ∃ addr v, addr < 256 ∧ t.mem = Memory.write s.mem addr v := by
  cases h with
  | push | call => exact .inr ⟨_, _, State.stackAddr_lt _, rfl⟩
  | _ => exact .inl rfl

/-- `FL` stays, or becomes the flags of a comparison. -/
theorem Effect.fl_cases {i : Instr} {s t : State} (h : Effect i s t) :
    t.fl = s.fl ∨ ∃ va vb, t.fl = compareFlags va vb := by
  cases h with
  | compare => exact .inr ⟨_, _, rfl⟩
  | _ => exact .inl rfl

/-- The fall-through of a two-byte control transfer is where a sequential instruction of its length goes on. -/
theorem State.afterTwo_eq_add_length (s : State) {ir : Byte} (h : instrLength ir = 2) :
    BitVec.ofNat 16 s.afterTwo = s.pc + BitVec.ofNat 16 (instrLength ir) := by
  rw [h]
  exact s.afterTwo_eq

/-- `pc` stays (a fault or a halt), passes the instruction, or becomes an 8-bit target. -/
theorem Effect.pc_cases {i : Instr} {s t : State} (h : Effect i s t) :
    t.pc = s.pc ∨ t.pc = s.pc + BitVec.ofNat 16 (instrLength i.ir) ∨ ∃ v, t.pc = zext16 v := by
  cases h with
  | badIndex | divideByZero | valueOutOfRange | hlt => exact .inl rfl
  | writeNot | writeLdi | writeTwo | compare | print | push | pop => exact .inr (.inl rfl)
  | call | ret | jmp => exact .inr (.inr ⟨_, rfl⟩)
  | jeq a =>
    by_cases hf : s.flE = true
    · exact .inr (.inr ⟨s.reg a, if_pos hf⟩)
    · exact .inr (.inl ((if_neg hf).trans (s.afterTwo_eq_add_length (encode_length _).symm)))
  | jne a =>
    by_cases hf : s.flE = true
    · exact .inr (.inl ((if_pos hf).trans (s.afterTwo_eq_add_length (encode_length _).symm)))
    · exact .inr (.inr ⟨s.reg a, if_neg hf⟩)

/-- The flags of a comparison are a legal `FL`. -/
theorem compareFlags_legal (va vb : Byte) :
    compareFlags va vb = 0 ∨ compareFlags va vb = 1 ∨ compareFlags va vb = 2 ∨ compareFlags va vb = 4 := by
  unfold compareFlags
  split_ifs
  · exact .inr (.inl rfl)
  · exact .inr (.inr (.inr rfl))
  · exact .inr (.inr (.inl rfl))

/-! ### The report at the error exit (rules R35, R240, R243) -/

/-- The report `State.takeFault` leaves. -/
def State.faultReport (s : State) (fetched : List Byte) (value : Nat) : FaultInfo where
  pc := s.pc
  ir := fetched[0]?
  opa := fetched[1]?
  opb := fetched[2]?
  value := value
  regs := s.x

/-- Taking a fault with a sound report keeps the invariant: nothing but `run` is written. -/
theorem State.Sound.takeFault {c : Config} {s : State} {cause : FaultCause} {fetched : List Byte} {value : Nat}
    (hs : State.Sound c s) (h : ReportSound c s cause (s.faultReport fetched value)) :
    State.Sound c (s.takeFault cause fetched value) where
  memCanonical := hs.memCanonical
  memInside := hs.memInside
  flLegal := hs.flLegal
  pcInside := hs.pcInside
  report := by
    intro cause' info hrun
    cases hrun
    exact h

/-- The latches are sound if each byte fetched is the one in its cell. -/
theorem latchesSound_faultReport {s : State} {fetched : List Byte}
    (h : ∀ k b, fetched[k]? = some b → Memory.read s.mem (s.pc.toNat + k) = b) (value : Nat) :
    LatchesSound s (s.faultReport fetched value) :=
  ⟨h 0, h 1, h 2⟩

/-- The bytes of a fetched instruction are those in the cells from `pc` on. -/
theorem State.read_of_fetch {c : Config} {s : State} {i : Instr} (hf : s.fetch c = .ok i) (k : Nat) (b : Byte)
    (hb : (encode i)[k]? = some b) : Memory.read s.mem (s.pc.toNat + k) = b := by
  obtain ⟨hk, rfl⟩ := List.getElem?_eq_some_iff.1 hb
  exact (State.fetch_ok hf).2 k hk

/-- An operand byte is latched in `opa` or `opb`. -/
theorem latched_of_mem_operands {i : Instr} {b : Byte} (h : b ∈ i.operands) :
    (encode i)[1]? = some b ∨ (encode i)[2]? = some b := by
  cases i <;> simp only [Instr.operands, List.mem_cons, List.not_mem_nil, or_false] at h
  case push | pop | prn | call | jmp | jeq | jne | not => exact .inl (h ▸ rfl)
  all_goals
    rcases h with rfl | rfl
    · exact .inl rfl
    · exact .inr rfl

/-- A fault an instruction takes leaves a sound report. -/
theorem Effect.report_sound {c : Config} {i : Instr} {s t : State} {cause : FaultCause} {info : FaultInfo}
    (h : Effect i s t) (hr : s.run = .running) (hf : s.fetch c = .ok i) (hrun : t.run = .faulted cause info) :
    ReportSound c t cause info := by
  have hlatch := latchesSound_faultReport (State.read_of_fetch hf)
  cases h with
  | badIndex _ _ b hi h7 =>
    cases hrun
    exact ⟨rfl, rfl, hlatch _, ⟨_, rfl⟩, h7, Nat.le_of_lt_succ b.isLt, b, latched_of_mem_operands hi, rfl⟩
  | divideByZero a b =>
    cases hrun
    exact ⟨rfl, rfl, hlatch _, rfl, rfl, a, b, rfl, rfl⟩
  | valueOutOfRange a _ hv =>
    cases hrun
    exact ⟨rfl, rfl, hlatch _, rfl, rfl, hv, rfl, a, rfl⟩
  | hlt => cases hrun
  | _ => cases hr.symm.trans hrun

/-- A failed fetch takes a fault whose report is sound. -/
theorem State.Sound.takeFetchFault {c : Config} {s : State} {e : DecodeError} (hs : State.Sound c s)
    (hf : s.fetch c = .error e) : State.Sound c (s.takeFetchFault e) := by
  rcases State.fetch_error hf with ⟨hpc, rfl⟩ | ⟨-, hrec⟩ | ⟨m, hm, -, hpc, rfl⟩ | ⟨m, hm, -, hpc, rfl⟩
  · exact hs.takeFault ⟨rfl, rfl, latchesSound_faultReport (by simp) _, hpc, Nat.le_add_right _ _, rfl⟩
  · have hlatch : ∀ k b, [Memory.read s.mem s.pc.toNat][k]? = some b → Memory.read s.mem (s.pc.toNat + k) = b := by
      intro k b hb
      obtain ⟨rfl, rfl⟩ : k = 0 ∧ Memory.read s.mem s.pc.toNat = b := by simpa [List.getElem?_singleton] using hb
      rfl
    rcases recognise_error hrec with ⟨rfl, hb⟩ | ⟨rfl, hb⟩
    · exact hs.takeFault ⟨rfl, rfl, latchesSound_faultReport hlatch _, _, rfl, rfl, hb, rfl, rfl⟩
    · exact hs.takeFault ⟨rfl, rfl, latchesSound_faultReport hlatch _, _, rfl, rfl, hb, rfl, rfl⟩
  · exact hs.takeFault ⟨rfl, rfl, ⟨fun b hb => hm.trans (Option.some.inj hb), nofun, nofun⟩, hpc.ge,
      Nat.le_succ _, rfl⟩
  · exact hs.takeFault ⟨rfl, rfl, ⟨fun b hb => hm.trans (Option.some.inj hb), fun b hb => Option.some.inj hb, nofun⟩,
      hpc.ge, Nat.le_refl _, rfl⟩

/-! ### The invariant along a run -/

/-- An instruction fetched at `pc` keeps the invariant. -/
theorem Effect.keeps_sound {c : Config} {i : Instr} {s t : State} (hc : c.legal) (hs : State.Sound c s)
    (hr : s.run = .running) (hf : s.fetch c = .ok i) (h : Effect i s t) : State.Sound c t where
  memCanonical := by
    rcases h.mem_cases with hm | ⟨addr, v, -, hm⟩ <;> rw [hm]
    · exact hs.memCanonical
    · exact Memory.wf_write _ hs.memCanonical addr v
  memInside := by
    rcases h.mem_cases with hm | ⟨addr, v, haddr, hm⟩ <;> rw [hm]
    · exact hs.memInside
    · intro cell hcell
      rcases Memory.mem_write hcell with hat | hold
      · omega
      · exact hs.memInside cell hold
  flLegal := by
    rcases h.fl_cases with hfl | ⟨va, vb, hfl⟩ <;> rw [hfl]
    · exact hs.flLegal
    · exact compareFlags_legal va vb
  pcInside := by
    rcases h.pc_cases with hpc | hpc | ⟨v, hpc⟩ <;> rw [hpc]
    · exact hs.pcInside
    · have hend := (State.fetch_ok hf).1
      rw [encode_length] at hend
      rw [pc_add_toNat (by omega)]
      exact hend
    · have := v.isLt
      rw [zext16_toNat]
      omega
  report := fun _ _ => h.report_sound hr hf

/-- A step keeps the invariant, for every allowed capacity. -/
theorem State.Sound.step {c : Config} {s t : State} (hc : c.legal) (hs : State.Sound c s)
    (h : stepWith c s = .next t) : State.Sound c t := by
  obtain ⟨hr, ⟨i, hf, he⟩ | ⟨e, hf, rfl⟩⟩ := stepWith_cases h
  · exact he.keeps_sound hc hs hr hf
  · exact hs.takeFetchFault hf

/-- Settles O53: the step is the effect of the instruction fetched, or a fetch fault, and each keeps the invariant. -/
theorem stepKeepsStateSound : Obligations.StepKeepsStateSound :=
  ⟨fun _ _ _ hc hs h => hs.step hc h, fun _ _ hs h => hs.step (by decide) h⟩

/-- What holds at the start of a run and every step keeps holds all along it. -/
theorem Reaches.keeps {c : Config} {s t : State} {P : State → Prop} (h : Reaches c s t) (start : P s)
    (step : ∀ t u, P t → stepWith c t = .next u → P u) : P t := by
  induction h with
  | start => exact start
  | step _ hs ih => exact step _ _ ih hs

/-- Loading an image into a sound running state gives a sound state (rule R221). -/
theorem State.Sound.loadImage {c : Config} {image : List Byte} {s t : State} (hs : State.Sound c s)
    (hr : s.run = .running) (h : loadImage c image s = some t) : State.Sound c t := by
  unfold Machine.loadImage at h
  split at h
  · next hfits =>
    cases h
    exact
      { memCanonical := Memory.wf_writeBytes _ hs.memCanonical 0 image
        memInside := fun cell hcell => by
          rcases Memory.mem_writeBytes hcell with hnew | hold
          · omega
          · exact hs.memInside cell hold
        flLegal := hs.flLegal
        pcInside := hs.pcInside
        report := fun _ _ hrun => nomatch hr.symm.trans hrun }
  · cases h

/-- Settles O54: the loaded state is sound and every step keeps that; a step starts in a running state only. -/
theorem everyRunOfEveryImageStaysSound : Obligations.EveryRunOfEveryImageStaysSound := by
  intro c image s t hc hload hreach
  have hs : State.Sound c s := (resetStateIsSound c hc).loadImage rfl hload
  exact ⟨hreach.keeps hs fun _ _ ht h => ht.step hc h, fun hterm _ h => hterm (running_of_stepWith h)⟩

end Sys2Proof.Machine
end

section
/-! PROOFS. Memory (spec 20_memory.md): read after write and the canonical form (rules R50 to R53), who writes and who reads
memory (rules R55, R66), what a stored byte leads to when it is fetched (rule R64), and which steps reach `pc` 256 or above
(rules R66, R120). -/

namespace Sys2Proof.Machine

open Claims

/-! ### Canonical memories (rules R50, R52, R53) -/

/-- Settles O46: at the address written the canonical form is needed, elsewhere it is not. -/
theorem readAfterWriteInCanonicalMemory : Obligations.ReadAfterWriteInCanonicalMemory := by
  refine fun m addr v hm => ⟨Memory.wf_write m hm addr v, fun a => ?_⟩
  split_ifs with ha
  · rw [ha, Memory.read_write_same m hm]
  · exact Memory.read_write_ne m v ha

/-- The canonical form of a memory with a first listed cell, part by part. -/
theorem Memory.wfFrom_cons {lo a : Nat} {v : Byte} {rest : Memory} :
    Memory.wfFrom lo ((a, v) :: rest) = true ↔ lo ≤ a ∧ v ≠ Memory.blank ∧ Memory.wfFrom (a + 1) rest = true := by
  simp [Memory.wfFrom, and_assoc]

/-- The first listed cell holds what is listed. -/
theorem Memory.read_cons_self (a : Nat) (v : Byte) (rest : Memory) : Memory.read ((a, v) :: rest) a = v :=
  if_pos rfl

/-- Another cell is looked up in the rest. -/
theorem Memory.read_cons_ne {a x : Nat} (v : Byte) (rest : Memory) (h : x ≠ a) :
    Memory.read ((a, v) :: rest) x = Memory.read rest x :=
  if_neg h

/-- Where a canonical memory does not read blank, its listed cells have begun. -/
theorem Memory.head_le_of_read_ne_blank {lo a x : Nat} {v : Byte} {rest : Memory}
    (h : Memory.wfFrom lo ((a, v) :: rest) = true) (hx : Memory.read ((a, v) :: rest) x ≠ Memory.blank) : a ≤ x := by
  obtain ⟨-, hv, hrest⟩ := Memory.wfFrom_cons.1 h
  by_contra hlt
  exact hx (Memory.read_below _ (Memory.wfFrom_cons.2 ⟨le_refl a, hv, hrest⟩) (by omega))

/-- Canonical memories that read alike list the same cells. -/
theorem Memory.eq_of_read_eq {lo lo' : Nat} {m m' : Memory} (h : Memory.wfFrom lo m = true)
    (h' : Memory.wfFrom lo' m' = true) (hread : ∀ a, Memory.read m a = Memory.read m' a) : m = m' := by
  induction m generalizing lo lo' m' with
  | nil =>
    cases m' with
    | nil => rfl
    | cons c' rest' =>
      obtain ⟨b, w⟩ := c'
      obtain ⟨-, hw, -⟩ := Memory.wfFrom_cons.1 h'
      exact absurd ((Memory.read_cons_self b w rest').symm.trans (hread b).symm) hw
  | cons c rest ih =>
    obtain ⟨a, v⟩ := c
    obtain ⟨-, hv, hrest⟩ := Memory.wfFrom_cons.1 h
    have hreadA := (hread a).symm.trans (Memory.read_cons_self a v rest)
    cases m' with
    | nil => exact absurd hreadA.symm hv
    | cons c' rest' =>
      obtain ⟨b, w⟩ := c'
      obtain ⟨-, hw, hrest'⟩ := Memory.wfFrom_cons.1 h'
      have hreadB := (hread b).trans (Memory.read_cons_self b w rest')
      have hab : a = b := Nat.le_antisymm (Memory.head_le_of_read_ne_blank h (hreadB ▸ hw))
        (Memory.head_le_of_read_ne_blank h' (hreadA ▸ hv))
      subst hab
      have hvw : v = w := (Memory.read_cons_self a v rest).symm.trans hreadB
      have htail : ∀ x, Memory.read rest x = Memory.read rest' x := fun x => by
        by_cases hx : x ≤ a
        · rw [Memory.read_below rest hrest (by omega), Memory.read_below rest' hrest' (by omega)]
        · have hne : x ≠ a := by omega
          rw [← Memory.read_cons_ne v rest hne, hread x, Memory.read_cons_ne w rest' hne]
      rw [hvw, ih hrest hrest' htail]

/-- Settles O47, by induction on the listed cells: the first ones are equal, and the rests read alike. -/
theorem canonicalMemoryIsDeterminedByItsCells : Obligations.CanonicalMemoryIsDeterminedByItsCells :=
  fun _ _ => Memory.eq_of_read_eq

/-! ### Which instructions write memory (rules R55, R66) -/

/-- Memory stays, or PUSH or CALL writes the cell at the decremented stack pointer. -/
theorem Effect.mem_eq_or_store {i : Instr} {s t : State} (h : Effect i s t) :
    t.mem = s.mem ∨ storesToStack i = true ∧ ∃ v, t.mem = Memory.write s.mem s.decSp.stackAddr v := by
  cases h with
  | push | call => exact .inr ⟨rfl, _, rfl⟩
  | _ => exact .inl rfl

/-- Settles O43, by what the effect did to memory. -/
theorem onlyPushAndCallWriteMemory : Obligations.OnlyPushAndCallWriteMemory := by
  constructor
  · intro i s t h hi a
    rcases (effect_of_exec h).mem_eq_or_store with hm | ⟨hstore, -⟩
    · rw [hm]
    · cases hi.symm.trans hstore
  · rintro i s t h - _ rfl
    refine ⟨State.stackAddr_lt _, fun a ha => ?_⟩
    rcases (effect_of_exec h).mem_eq_or_store with hm | ⟨-, v, hm⟩
    · rw [hm]
    · rw [hm, Memory.read_write_ne _ v ha]

/-! ### Which cells a step reads (rules R55, R114) -/

/-- The state with another memory. -/
def State.withMem (s : State) (m : Memory) : State := { s with mem := m }

/-- If the first outcome is a next state, so is the second, and they differ in memory only. -/
def AgreeButMem (o o' : Outcome) : Prop := ∀ t, o = .next t → ∃ m, o' = .next (t.withMem m)

/-- Two next states that differ in memory only. -/
theorem AgreeButMem.next {t t' : State} (m : Memory) (h : t' = t.withMem m) : AgreeButMem (.next t) (.next t') := by
  rintro _ ⟨⟩
  exact ⟨m, congrArg _ h⟩

/-- A choice that does not look at memory. -/
theorem AgreeButMem.ite {p : Prop} [Decidable p] {o₁ o₂ o₁' o₂' : Outcome} (h₁ : AgreeButMem o₁ o₁')
    (h₂ : AgreeButMem o₂ o₂') : AgreeButMem (if p then o₁ else o₂) (if p then o₁' else o₂') := by
  split_ifs
  · exact h₁
  · exact h₂

/-- The check of a register operand does not look at memory. -/
theorem AgreeButMem.withReg {i : Instr} {b : Byte} {s : State} {m : Memory} {go go' : Reg → Outcome}
    (h : ∀ r, AgreeButMem (go r) (go' r)) :
    AgreeButMem (Machine.withReg i b s go) (Machine.withReg i b (s.withMem m) go') := by
  unfold Machine.withReg
  cases regOf b with
  | some r => exact h r
  | none => exact .next m rfl

/-- Nor does the check of two. -/
theorem AgreeButMem.withRegs {i : Instr} {opa opb : Byte} {s : State} {m : Memory} {go go' : Reg → Reg → Outcome}
    (h : ∀ a b, AgreeButMem (go a b) (go' a b)) :
    AgreeButMem (Machine.withRegs i opa opb s go) (Machine.withRegs i opa opb (s.withMem m) go') :=
  .withReg fun a => .withReg fun b => h a b

/-- What an instruction does outside memory depends on no cell but, for POP and RET, the one at the stack pointer. -/
theorem exec_withMem (i : Instr) (s : State) (m : Memory)
    (hload : loadsFromStack i = true → (s.withMem m).loadAtSp = s.loadAtSp) :
    AgreeButMem (exec i s) (exec i (s.withMem m)) := by
  cases i with
  | hlt => exact .next m rfl
  | ret =>
    simp only [exec, execRet, hload rfl]
    exact .next m rfl
  | pop =>
    simp only [exec, execPop, hload rfl]
    exact .withReg fun _ => .next m rfl
  | push => exact .withReg fun _ => .next _ rfl
  | call => exact .withReg fun _ => .ite (.next m rfl) (.next _ rfl)
  | jeq | jne => exact .withReg fun _ => .ite (.next m rfl) (.next m rfl)
  | prn | jmp | not | ldi => exact .withReg fun _ => .next m rfl
  | mod => exact .withRegs fun _ _ => .ite (.next m rfl) (.next m rfl)
  | add | sub | mul | cmp | and | or | xor | shl | shr => exact .withRegs fun _ _ => .next m rfl

/-- The decoder looks at the opcode and at as many places after it as that byte's `cnt` says. -/
theorem decodeFrom_congr_cnt {g g' : Nat → Option Byte} (h0 : g 0 = g' 0)
    (h : ∀ ir, g 0 = some ir → ∀ k ≤ cntField ir, g k = g' k) : decodeFrom g = decodeFrom g' := by
  unfold decodeFrom
  rw [← h0]
  cases hg : g 0 with
  | none => rfl
  | some ir =>
    have h1 : (if 1 ≤ cntField ir then g 1 else some 0) = if 1 ≤ cntField ir then g' 1 else some 0 :=
      ite_congr rfl (h ir hg 1) fun _ => rfl
    have h2 : (if cntField ir = 2 then g 2 else some 0) = if cntField ir = 2 then g' 2 else some 0 :=
      ite_congr rfl (fun hcnt => h ir hg 2 hcnt.ge) fun _ => rfl
    simp only [h1, h2]

/-- A fetch sees no cell of memory but the instruction's own bytes. -/
theorem State.fetch_withMem (c : Config) {s : State} {m : Memory}
    (h : ∀ k ≤ cntField (Memory.read s.mem s.pc.toNat),
      Memory.read m (s.pc.toNat + k) = Memory.read s.mem (s.pc.toNat + k)) :
    (s.withMem m).fetch c = s.fetch c := by
  have hbyte : ∀ k ≤ cntField (Memory.read s.mem s.pc.toNat),
      Memory.fetchByte c s.mem (s.pc.toNat + k) = Memory.fetchByte c m (s.pc.toNat + k) := fun k hk => by
    simp only [Memory.fetchByte, h k hk]
  refine (decodeFrom_congr_cnt (hbyte 0 (Nat.zero_le _)) fun ir hir => ?_).symm
  obtain ⟨-, rfl⟩ := Memory.fetchByte_eq_some hir
  exact hbyte

/-- A fault of the fetch does not look at memory. -/
theorem State.takeFetchFault_withMem (s : State) (m : Memory) (e : DecodeError) :
    (s.withMem m).takeFetchFault e = (s.takeFetchFault e).withMem m := by
  cases e <;> rfl

/-- With another memory of the same bytes at `pc`, a step agrees outside memory if the instruction fetched does. -/
theorem stepWith_withMem {c : Config} {s : State} {m : Memory} (hf : (s.withMem m).fetch c = s.fetch c)
    (hload : ∀ i, s.fetch c = .ok i → loadsFromStack i = true → (s.withMem m).loadAtSp = s.loadAtSp) :
    AgreeButMem (stepWith c s) (stepWith c (s.withMem m)) := by
  have hrun : (s.withMem m).run = s.run := rfl
  unfold stepWith
  rw [hf, hrun]
  cases s.run with
  | halted | faulted => exact nofun
  | running =>
    cases hi : s.fetch c with
    | ok i => exact exec_withMem i s m (hload i hi)
    | error e => exact .next m (s.takeFetchFault_withMem m e)

/-- Settles O44: the fetch is the same, and so is what the instruction fetched does outside memory. -/
theorem stepReadsOnlyItsBytesAndTheStackCell : Obligations.StepReadsOnlyItsBytesAndTheStackCell := by
  intro c s t m h hbytes hload
  obtain ⟨m', ht⟩ := stepWith_withMem (State.fetch_withMem c hbytes) hload t h
  exact ⟨t.withMem m', ht, rfl, rfl, rfl, rfl, rfl⟩

/-! ### A stored byte is fetched as code (rule R64) -/

/-- The opcodes of the two tables of rule R87 are those of the 21 rows. -/
theorem mem_opcodes_iff {b : Byte} : (b ∈ tableOpcodes ∨ b ∈ aluOpcodes) ↔ ∃ m, b = opcode m := by
  constructor
  · have htable : tableOpcodes = tableMnemonics.map opcode := rfl
    have halu : aluOpcodes = aluMnemonics.map opcode := rfl
    rw [htable, halu, List.mem_map, List.mem_map]
    rintro (⟨m, -, rfl⟩ | ⟨m, -, rfl⟩) <;> exact ⟨m, rfl⟩
  · rintro ⟨m, rfl⟩
    cases m <;> decide

/-- The `alu` bit as a number. -/
theorem aluBit_eq_true_iff {b : Byte} : aluBit b = true ↔ b.toNat / 32 % 2 = 1 := by
  simp [aluBit, BitVec.getLsbD, Nat.testBit_eq_decide_div_mod_eq]

/-- The first byte of a fetched instruction is the cell at `pc`. -/
theorem State.ir_of_fetch {c : Config} {s : State} {i : Instr} (h : s.fetch c = .ok i) :
    Memory.read s.mem s.pc.toNat = i.ir :=
  State.read_of_fetch h 0 i.ir rfl

/-- A running state whose opcode is in the table executes, or lacks an operand byte at the end of memory. -/
theorem State.step_of_recognised {c : Config} {u : State} {m : Mnemonic} (hpc : u.pc.toNat < c.memCells)
    (hm : Memory.read u.mem u.pc.toNat = opcode m) (hrun : u.run = .running) :
    (∃ i, u.fetch c = .ok i ∧ stepWith c u = exec i u) ∨
      (c.memCells ≤ u.pc.toNat + cntField (opcode m) ∧
        stepWith c u = .next (u.takeFault .addressOutOfRange
          (opcode m :: if u.pc.toNat + 1 < c.memCells then [Memory.read u.mem (u.pc.toNat + 1)] else []) c.memCells)) := by
  rcases stepWith_running (c := c) hrun with hok | ⟨e, hf, hstep⟩
  · exact .inl hok
  refine .inr ?_
  rw [hstep]
  rcases State.fetch_error hf with ⟨hend, -⟩ | ⟨-, hrec⟩ | ⟨m', hm', hcnt, hend, rfl⟩ | ⟨m', hm', hcnt, hend, rfl⟩
  · omega
  · rw [hm, recognise_opcode] at hrec
    cases hrec
  · rw [← hm.symm.trans hm'] at hcnt ⊢
    rw [if_neg (by omega), ← hend]
    exact ⟨by omega, rfl⟩
  · rw [← hm.symm.trans hm'] at hcnt ⊢
    rw [if_pos (by omega), ← hend, hcnt]
    exact ⟨le_refl _, rfl⟩

/-- A running state whose opcode is in no table takes the fault of that opcode's class. -/
theorem State.step_of_unrecognised {c : Config} {u : State} (hpc : u.pc.toNat < c.memCells)
    (hm : ∀ m, Memory.read u.mem u.pc.toNat ≠ opcode m) (hrun : u.run = .running) :
    stepWith c u = .next (u.takeFault
      (if aluBit (Memory.read u.mem u.pc.toNat) then .unsupportedALUOperation else .invalidInstruction)
      [Memory.read u.mem u.pc.toNat] (Memory.read u.mem u.pc.toNat).toNat) := by
  rcases stepWith_running (c := c) hrun with ⟨i, hf, -⟩ | ⟨e, hf, hstep⟩
  · exact absurd (State.ir_of_fetch hf) (hm _)
  rw [hstep]
  rcases State.fetch_error hf with ⟨hend, -⟩ | ⟨-, hrec⟩ | ⟨m, hopc, -⟩ | ⟨m, hopc, -⟩
  · omega
  · rcases recognise_error hrec with ⟨rfl, hb⟩ | ⟨rfl, hb⟩ <;> rw [hb] <;> rfl
  · exact absurd hopc (hm m)
  · exact absurd hopc (hm m)

/-- The cell at `pc`, if it exists, is what is fetched as the opcode. -/
theorem fetchesOpcode_read {c : Config} {u : State} (hpc : u.pc.toNat < c.memCells) :
    FetchesOpcode c u (Memory.read u.mem u.pc.toNat) := by
  refine ⟨?_, fun i hf => congrArg some (State.ir_of_fetch hf).symm, fun hrun => ⟨fun hb => ?_, fun ht ha => ?_⟩⟩
  · rw [List.head?_eq_getElem?, State.bytesAtPc_get c u (by decide)]
    exact Memory.fetchByte_of_lt hpc _
  · obtain ⟨m, hm⟩ := mem_opcodes_iff.1 hb
    refine (State.step_of_recognised hpc hm hrun).imp_right fun ⟨hend, hstep⟩ => ?_
    rw [hm]
    refine ⟨hend, hstep.trans ?_⟩
    split_ifs <;> rfl
  · have hm : ∀ m, Memory.read u.mem u.pc.toNat ≠ opcode m := fun m hm =>
      (mem_opcodes_iff.2 ⟨m, hm⟩).elim ht ha
    rw [State.step_of_unrecognised hpc hm hrun]
    simp only [aluBit_eq_true_iff]
    rfl

/-- A byte stored at the stack pointer is fetched as code by a state with `pc` there and that cell as the store left it. -/
theorem fetchesOpcode_of_store {c : Config} {s u : State} {v : Byte} (hc : c.legal) (hs : Memory.wf s.mem = true)
    (hpc : u.pc.toNat = s.stackAddr)
    (hcell : Memory.read u.mem s.stackAddr = Memory.read (s.storeAtSp v).mem s.stackAddr) : FetchesOpcode c u v := by
  have hlt : u.pc.toNat < c.memCells := by
    have := s.stackAddr_lt
    have := hc.1
    omega
  have hread : Memory.read u.mem u.pc.toNat = v := by
    rw [hpc, hcell]
    exact Memory.read_write_same s.mem hs _ v
  exact hread ▸ fetchesOpcode_read hlt

/-- PUSH of a register decrements the stack pointer, stores and advances. -/
theorem exec_push (r : Reg) (s : State) :
    exec (.push (regByte r)) s = .next ((s.decSp.storeAtSp (s.decSp.reg r)).advance (opcode .push)) :=
  withReg_regByte _ r s _

/-- CALL of a register whose return address fits decrements the stack pointer, stores that address and jumps. -/
theorem exec_call (r : Reg) {s : State} (h : s.afterTwo ≤ 0xFF) :
    exec (.call (regByte r)) s =
      .next ((s.decSp.storeAtSp (BitVec.ofNat 8 s.afterTwo)).jumpTo (zext16 (s.decSp.reg r))) :=
  (withReg_regByte _ r s _).trans (if_neg (Nat.not_lt.2 h))

/-- Settles O45: both instructions are a store at the decremented stack pointer. -/
theorem pushedByteIsFetchedAsCode : Obligations.PushedByteIsFetchedAsCode := by
  constructor
  · intro c ra s t u hc hs h hpc hcell
    rw [exec_push] at h
    cases h
    exact fetchesOpcode_of_store (s := s.decSp) hc hs hpc hcell
  · intro c ra s t u hc hs hfits h hpc hcell
    rw [exec_call ra hfits] at h
    cases h
    exact fetchesOpcode_of_store (s := s.decSp) hc hs hpc hcell

/-! ### How `pc` reaches 256 (rules R66, R120) -/

/-- An instruction stops at `pc`, passes its own bytes, or, if its opcode has the `spc` bit, goes to an 8-bit target. -/
theorem Effect.stops_or_passes_or_jumps {i : Instr} {s t : State} (h : Effect i s t) :
    (t.run ≠ .running ∧ t.pc = s.pc) ∨ t.pc = s.pc + BitVec.ofNat 16 (instrLength i.ir) ∨
      (i.ir.getLsbD 4 = true ∧ ∃ v, t.pc = zext16 v) := by
  cases h with
  | badIndex | divideByZero | valueOutOfRange | hlt => exact .inl ⟨nofun, rfl⟩
  | writeNot | writeLdi | writeTwo | compare | print | push | pop => exact .inr (.inl rfl)
  | call => exact .inr (.inr ⟨(rfl : (opcode .call).getLsbD 4 = true), _, rfl⟩)
  | ret => exact .inr (.inr ⟨(rfl : (opcode .ret).getLsbD 4 = true), _, rfl⟩)
  | jmp => exact .inr (.inr ⟨(rfl : (opcode .jmp).getLsbD 4 = true), _, rfl⟩)
  | jeq =>
    rw [State.pc_jumpTo]
    split_ifs
    · exact .inr (.inr ⟨(rfl : (opcode .jeq).getLsbD 4 = true), _, rfl⟩)
    · exact .inr (.inl (s.afterTwo_eq_add_length (encode_length _).symm))
  | jne =>
    rw [State.pc_jumpTo]
    split_ifs
    · exact .inr (.inl (s.afterTwo_eq_add_length (encode_length _).symm))
    · exact .inr (.inr ⟨(rfl : (opcode .jne).getLsbD 4 = true), _, rfl⟩)

/-- A fault of the fetch leaves `pc`. -/
@[simp] theorem State.pc_takeFetchFault (s : State) (e : DecodeError) : (s.takeFetchFault e).pc = s.pc := by
  cases e <;> rfl

/-- After a fault of the fetch the machine does not run. -/
theorem State.run_takeFetchFault_ne_running (s : State) (e : DecodeError) : (s.takeFetchFault e).run ≠ .running := by
  cases e <;> exact nofun

/-- No instruction is longer than 3 bytes (rule R80). -/
theorem encode_length_le_three (i : Instr) : (encode i).length ≤ 3 := by
  cases i <;> simp [encode, Instr.operands]

/-- A step leaves `pc` where it was and stops, passes the instruction fetched without a wrap, or, if the opcode has the
`spc` bit, goes to an 8-bit target. -/
theorem pc_cases_of_stepWith {c : Config} {s t : State} (hc : c.legal) (h : stepWith c s = .next t) :
    (t.run ≠ .running ∧ t.pc = s.pc) ∨
      ∃ i, s.fetch c = .ok i ∧ (t.pc.toNat = s.pc.toNat + (encode i).length ∨
        (i.ir.getLsbD 4 = true ∧ t.pc.toNat < 256)) := by
  obtain ⟨-, ⟨i, hf, he⟩ | ⟨e, -, rfl⟩⟩ := stepWith_cases h
  · refine he.stops_or_passes_or_jumps.imp_right fun hgo => ⟨i, hf, hgo.imp (fun hpc => ?_) ?_⟩
    · have hend := (State.fetch_ok hf).1
      have hcap := hc.2
      rw [hpc, encode_length, pc_add_toNat (by rw [← encode_length]; omega)]
    · rintro ⟨hspc, v, hpc⟩
      rw [hpc, zext16_toNat]
      exact ⟨hspc, v.isLt⟩
  · exact .inl ⟨s.run_takeFetchFault_ne_running e, s.pc_takeFetchFault e⟩

/-- Settles O35: an 8-bit target is below 256, and only an opcode with the `spc` bit has one. -/
theorem onlySequentialAdvanceReaches256 : Obligations.OnlySequentialAdvanceReaches256 := by
  intro c s t hc h
  rcases pc_cases_of_stepWith hc h with ⟨hstop, hpc⟩ | ⟨i, hf, hpc | ⟨hspc, hlt⟩⟩
  · rw [hpc]
    exact ⟨fun _ => ⟨le_refl _, Nat.le_add_right _ _, .inl ⟨hstop, rfl⟩⟩, fun _ _ _ hrun => absurd hrun hstop⟩
  · have hlen := encode_length_le_three i
    refine ⟨fun _ => ⟨by omega, by omega, .inr ⟨i, hf, hpc⟩⟩, fun i' hf' _ _ => ?_⟩
    obtain rfl : i = i' := Except.ok.inj (hf.symm.trans hf')
    exact hpc
  · refine ⟨fun hge => by omega, fun i' hf' hspc' _ => ?_⟩
    obtain rfl : i = i' := Except.ok.inj (hf.symm.trans hf')
    cases hspc.symm.trans hspc'

end Sys2Proof.Machine
end

section
/-! PROOFS. The encoding (spec 30_encoding.md): the fields of the opcode bytes (rule R88), decoding as the inverse of
encoding (rules R80 to R87), and the faults of unrecognised opcode bytes (rules R90, R91). -/

namespace Sys2Proof.Machine

open Claims

/-! ### The fields of the opcode bytes (rule R88) -/

/-- No two rows of the table share an opcode: each byte is recognised as one row. -/
theorem opcode_injective : Function.Injective opcode := by
  intro m m' h
  have hrec := congrArg recognise h
  rw [recognise_opcode, recognise_opcode] at hrec
  exact Except.ok.inj hrec

/-- Settles O27: the fields are read off the table row by row, and recognition tells the rows apart. -/
theorem opcodeFieldsAgreeWithTable : Obligations.OpcodeFieldsAgreeWithTable :=
  ⟨fun m => by cases m <;> decide, fun m => by cases m <;> decide, opcode_injective, fun m => by cases m <;> decide⟩

/-! ### Decoding and encoding are inverse (rules R80 to R87) -/

/-- Every instruction is made of a row of the table and two bytes, of which it may not use both. -/
theorem exists_eq_assemble (i : Instr) : ∃ m a b, i = assemble m a b := by
  cases i with
  | hlt => exact ⟨.hlt, 0, 0, rfl⟩
  | ret => exact ⟨.ret, 0, 0, rfl⟩
  | push a => exact ⟨.push, a, 0, rfl⟩
  | pop a => exact ⟨.pop, a, 0, rfl⟩
  | prn a => exact ⟨.prn, a, 0, rfl⟩
  | call a => exact ⟨.call, a, 0, rfl⟩
  | jmp a => exact ⟨.jmp, a, 0, rfl⟩
  | jeq a => exact ⟨.jeq, a, 0, rfl⟩
  | jne a => exact ⟨.jne, a, 0, rfl⟩
  | not a => exact ⟨.not, a, 0, rfl⟩
  | ldi a imm => exact ⟨.ldi, a, imm, rfl⟩
  | add a b => exact ⟨.add, a, b, rfl⟩
  | sub a b => exact ⟨.sub, a, b, rfl⟩
  | mul a b => exact ⟨.mul, a, b, rfl⟩
  | mod a b => exact ⟨.mod, a, b, rfl⟩
  | cmp a b => exact ⟨.cmp, a, b, rfl⟩
  | and a b => exact ⟨.and, a, b, rfl⟩
  | or a b => exact ⟨.or, a, b, rfl⟩
  | xor a b => exact ⟨.xor, a, b, rfl⟩
  | shl a b => exact ⟨.shl, a, b, rfl⟩
  | shr a b => exact ⟨.shr, a, b, rfl⟩

/-- The encoding is the opcode and as many of the two bytes as its `cnt` says. -/
theorem encode_assemble (m : Mnemonic) (a b : Byte) :
    encode (assemble m a b) = opcode m :: [a, b].take (cntField (opcode m)) := by
  cases m <;> rfl

/-- A byte beyond the `cnt` of the opcode reaches no instruction. -/
theorem assemble_ite_cntField (m : Mnemonic) (a b : Byte) :
    assemble m (if 1 ≤ cntField (opcode m) then a else 0) (if cntField (opcode m) = 2 then b else 0) = assemble m a b := by
  cases m <;> rfl

/-- No opcode has more than two operand bytes (rule R93). -/
theorem cntField_opcode_le_two (m : Mnemonic) : cntField (opcode m) ≤ 2 := by
  cases m <;> decide

/-- An opcode and the operand bytes its `cnt` asks for decode to the instruction they make. -/
theorem decodeFrom_eq_assemble {get : Nat → Option Byte} {m : Mnemonic} {a b : Byte} (h0 : get 0 = some (opcode m))
    (h1 : 1 ≤ cntField (opcode m) → get 1 = some a) (h2 : cntField (opcode m) = 2 → get 2 = some b) :
    decodeFrom get = .ok (assemble m a b) := by
  have hopa : (if 1 ≤ cntField (opcode m) then get 1 else some 0) =
      some (if 1 ≤ cntField (opcode m) then a else 0) := by
    split_ifs with h
    · exact h1 h
    · rfl
  have hopb : (if cntField (opcode m) = 2 then get 2 else some 0) =
      some (if cntField (opcode m) = 2 then b else 0) := by
    split_ifs with h
    · exact h2 h
    · rfl
  simp only [decodeFrom, h0, recognise_opcode, hopa, hopb, assemble_ite_cntField]

/-- A list starts with `x :: l` exactly if its head is `x` and its tail starts with `l`. -/
theorem cons_prefix_iff_tail {bytes l : List Byte} {x : Byte} :
    x :: l <+: bytes ↔ bytes[0]? = some x ∧ l <+: bytes.tail := by
  cases bytes with
  | nil => simp
  | cons y ys => simp [List.cons_prefix_cons, eq_comm]

/-- A list of bytes starts with an opcode byte and the first `n` of two operand bytes exactly if it has them at places 0, 1
and 2. -/
theorem cons_take_prefix_iff {bytes : List Byte} {ir a b : Byte} {n : Nat} (hn : n ≤ 2) :
    ir :: [a, b].take n <+: bytes ↔
      bytes[0]? = some ir ∧ (1 ≤ n → bytes[1]? = some a) ∧ (n = 2 → bytes[2]? = some b) := by
  interval_cases n <;> simp [cons_prefix_iff_tail]

/-- The decoder answers an instruction exactly for bytes that start with its encoding. -/
theorem decodeFrom_eq_ok_iff {bytes : List Byte} {i : Instr} :
    decodeFrom (fun k => bytes[k]?) = .ok i ↔ encode i <+: bytes := by
  constructor
  · intro h
    rcases decodeFrom_cases h with ⟨_, h⟩ | ⟨_, _, _, _, h⟩ | ⟨_, _, _, _, h⟩ | ⟨_, _, _, _, _, _, h⟩ |
      ⟨m, a, b, h0, h1, h2, h⟩ <;> cases h
    rw [encode_assemble]
    exact (cons_take_prefix_iff (cntField_opcode_le_two m)).2 ⟨h0, h1, h2⟩
  · obtain ⟨m, a, b, rfl⟩ := exists_eq_assemble i
    rw [encode_assemble]
    intro h
    obtain ⟨h0, h1, h2⟩ := (cons_take_prefix_iff (cntField_opcode_le_two m)).1 h
    exact decodeFrom_eq_assemble h0 h1 h2

/-- Decoding is the inverse of encoding, in both directions. -/
theorem decode_eq_ok_iff {bytes rest : List Byte} {i : Instr} :
    decode bytes = .ok (i, rest) ↔ bytes = encode i ++ rest := by
  constructor
  · intro h
    unfold decode at h
    split at h
    · cases h
    · next hd =>
      cases h
      rw [← encode_length]
      exact (List.prefix_iff_eq_append.1 (decodeFrom_eq_ok_iff.1 hd)).symm
  · rintro rfl
    have hd := decodeFrom_eq_ok_iff.2 (List.prefix_append (encode i) rest)
    simp only [decode, hd]
    rw [← encode_length, List.drop_left]

/-- Settles O24: the encoding followed by the rest is what decodes to the instruction and the rest. -/
theorem decodeReadsBackEveryEncodedInstruction : Obligations.DecodeReadsBackEveryEncodedInstruction :=
  fun _ _ => decode_eq_ok_iff.2 rfl

/-- Settles O25, by the same equivalence read from left to right. -/
theorem decodedBytesAreTheEncoding : Obligations.DecodedBytesAreTheEncoding :=
  fun _ _ _ => decode_eq_ok_iff.1

/-- Settles O26: each word is the encoding of its instruction, the last one followed by one more byte. -/
theorem sampleWordsDecodeAsWritten : Obligations.SampleWordsDecodeAsWritten :=
  ⟨decode_eq_ok_iff.2 rfl, decode_eq_ok_iff.2 rfl, decode_eq_ok_iff.2 rfl, decode_eq_ok_iff.2 rfl,
    decode_eq_ok_iff.2 rfl, decode_eq_ok_iff.2 rfl, decode_eq_ok_iff.2 rfl⟩

/-! ### Unrecognised opcode bytes (rules R90, R91) -/

/-- The ALU opcodes have the `alu` bit set. -/
theorem aluBit_of_mem_aluOpcodes : ∀ b ∈ aluOpcodes, aluBit b = true := by decide

/-- The Instruction Table opcodes have it clear. -/
theorem aluBit_of_mem_tableOpcodes : ∀ b ∈ tableOpcodes, aluBit b = false := by decide

/-- A byte with the `alu` bit clear that is none of the ten Instruction Table opcodes is in no row. -/
theorem ne_opcode_of_notMem_tableOpcodes {b : Byte} (hbit : aluBit b = false) (hb : b ∉ tableOpcodes) (m : Mnemonic) :
    b ≠ opcode m := fun hm =>
  (mem_opcodes_iff.2 ⟨m, hm⟩).elim hb fun halu => Bool.false_ne_true (hbit ▸ aluBit_of_mem_aluOpcodes b halu)

/-- A byte with the `alu` bit set that is none of the eleven ALU opcodes is in no row. -/
theorem ne_opcode_of_notMem_aluOpcodes {b : Byte} (hbit : aluBit b = true) (hb : b ∉ aluOpcodes) (m : Mnemonic) :
    b ≠ opcode m := fun hm =>
  (mem_opcodes_iff.2 ⟨m, hm⟩).elim (fun ht => Bool.false_ne_true (aluBit_of_mem_tableOpcodes b ht ▸ hbit)) hb

/-- Settles O28: the counts by enumeration of the 256 bytes; the fault is that of a byte in no row, and a faulted
state has no step. -/
theorem unrecognisedOpcodesFault : Obligations.UnrecognisedOpcodesFault := by
  refine ⟨rfl, rfl, ?_⟩
  rintro c s _ hrun hpc rfl
  refine ⟨fun hbit hir => ⟨_, rfl, ?_, rfl⟩, fun hbit hir => ⟨_, rfl, ?_, rfl⟩⟩
  · have halu : aluBit (Memory.read s.mem s.pc.toNat) = false := by
      rw [Bool.eq_false_iff, ne_eq, aluBit_eq_true_iff]
      omega
    rw [State.step_of_unrecognised hpc (ne_opcode_of_notMem_tableOpcodes halu hir) hrun, halu]
    rfl
  · have halu := aluBit_eq_true_iff.2 hbit
    rw [State.step_of_unrecognised hpc (ne_opcode_of_notMem_aluOpcodes halu hir) hrun, halu]
    rfl

end Sys2Proof.Machine
end

section
/-! PROOFS. The dispatch (spec 40_dispatch.md): the fetch as a reading of the bytes at `pc` (rules R111, R112, R114), when
there is a step (rules R122, R125), and where `pc` goes (rules R118, R121). -/

namespace Sys2Proof.Machine

open Claims

/-! ### The fetch reads the bytes at `pc` (rules R111, R112, R114) -/

/-- The fetch is the decoder over the bytes at `pc` that exist. -/
theorem State.fetch_eq_decodeFrom_bytesAtPc (c : Config) (s : State) :
    s.fetch c = decodeFrom (fun k => (s.bytesAtPc c)[k]?) :=
  decodeFrom_congr fun _ hk => (s.bytesAtPc_get c hk).symm

/-- A fetch answers an instruction exactly if the bytes at `pc` start with its encoding. -/
theorem State.fetch_eq_ok_iff {c : Config} {s : State} {i : Instr} :
    s.fetch c = .ok i ↔ encode i <+: s.bytesAtPc c := by
  rw [State.fetch_eq_decodeFrom_bytesAtPc, decodeFrom_eq_ok_iff]

/-- A running step executes what it fetches. -/
theorem stepWith_of_fetch_ok {c : Config} {s : State} {i : Instr} (hrun : s.run = .running) (hf : s.fetch c = .ok i) :
    stepWith c s = exec i s := by
  simp only [stepWith, hrun, hf]

/-- A running step takes the fault of a fetch that fails. -/
theorem stepWith_of_fetch_error {c : Config} {s : State} {e : DecodeError} (hrun : s.run = .running)
    (hf : s.fetch c = .error e) : stepWith c s = .next (s.takeFetchFault e) := by
  simp only [stepWith, hrun, hf]

/-- With `pc` at or above the capacity there is no opcode byte. -/
theorem State.fetch_eq_noOpcode {c : Config} {s : State} (hpc : c.memCells ≤ s.pc.toNat) :
    s.fetch c = .error .noOpcode := by
  have h0 : Memory.fetchByte c s.mem (s.pc.toNat + 0) = none := if_neg (Nat.not_lt.2 hpc)
  simp only [State.fetch, decodeFrom, h0]

/-- Settles O29: bytes that decode to an instruction start with its encoding, so it is what the step fetches. -/
theorem stepRunsDecodedInstruction : Obligations.StepRunsDecodedInstruction := by
  have hstep : ∀ (c : Config) (s : State) (i : Instr) (rest : List Byte), s.run = .running →
      decode (s.bytesAtPc c) = .ok (i, rest) → stepWith c s = exec i s := fun c s i rest hrun hd =>
    stepWith_of_fetch_ok hrun (State.fetch_eq_ok_iff.2 ⟨rest, (decode_eq_ok_iff.1 hd).symm⟩)
  exact ⟨hstep, hstep hardware⟩

/-- Settles O31: the fetch finds no opcode byte, and the step takes the fault of that. -/
theorem opcodeFetchBeyondMemoryFaults : Obligations.OpcodeFetchBeyondMemoryFaults :=
  fun _ _ hrun hpc => stepWith_of_fetch_error hrun (State.fetch_eq_noOpcode hpc)

/-- No two instructions share an encoding. -/
theorem encode_injective : Function.Injective encode := by
  intro i j h
  have hdecode : ∀ i, decode (encode i) = .ok (i, []) := fun i => decode_eq_ok_iff.2 (List.append_nil _).symm
  have hij := (hdecode i).symm.trans ((congrArg decode h).trans (hdecode j))
  exact congrArg Prod.fst (Except.ok.inj hij)

/-- An instruction fetched where the cells hold the encoding of `i` is `i`. -/
theorem State.eq_of_fetch_of_read {c : Config} {s : State} {i j : Instr} (hf : s.fetch c = .ok j) (hij : j.ir = i.ir)
    (hread : ∀ k, (h : k < (encode i).length) → s.pc.toNat + k < c.memCells →
      Memory.read s.mem (s.pc.toNat + k) = (encode i)[k]) : j = i := by
  obtain ⟨hfit, hcells⟩ := State.fetch_ok hf
  have hlen : (encode j).length = (encode i).length := by rw [encode_length, encode_length, hij]
  exact encode_injective (List.ext_getElem hlen fun k hj hi =>
    (hcells k hj).symm.trans (hread k hi (by omega)))

/-- Settles O30: the opcode is in the table, so the step executes an instruction that lies whole inside memory, which is
`i`, or lacks an operand byte at the end of memory; the length says which. -/
theorem operandFetchIsStrict : Obligations.OperandFetchIsStrict := by
  intro c s i hrun hread
  have hlen : (encode i).length = cntField i.ir + 1 := encode_length i
  have hopc (hpc : s.pc.toNat < c.memCells) : Memory.read s.mem s.pc.toNat = i.ir := hread 0 (by omega) hpc
  refine ⟨fun hfit => ?_, fun hpc hend => ?_⟩
  · have hpc : s.pc.toNat < c.memCells := by omega
    rcases State.step_of_recognised hpc (hopc hpc) hrun with ⟨j, hf, hstep⟩ | ⟨hmiss, -⟩
    · have hij : j.ir = i.ir := (State.ir_of_fetch hf).symm.trans (hopc hpc)
      rw [hstep, State.eq_of_fetch_of_read hf hij hread]
    · have hcnt : cntField (opcode i.mnemonic) = cntField i.ir := rfl
      omega
  · rcases State.step_of_recognised hpc (hopc hpc) hrun with ⟨j, hf, -⟩ | ⟨-, hstep⟩
    · have hfit := (State.fetch_ok hf).1
      have hij : j.ir = i.ir := (State.ir_of_fetch hf).symm.trans (hopc hpc)
      rw [State.eq_of_fetch_of_read hf hij hread] at hfit
      omega
    · rw [hstep]
      split_ifs with h1
      · have hlt : 1 < (encode i).length := by omega
        rw [hread 1 hlt h1, List.getElem?_eq_getElem hlt]
        rfl
      · rfl

/-! ### When there is a step (rules R122, R125) -/

/-- A register operand leads to a next state if each register does. -/
theorem exists_next_withReg {i : Instr} {b : Byte} {s : State} {go : Reg → Outcome} (h : ∀ r, ∃ t, go r = .next t) :
    ∃ t, withReg i b s go = .next t := by
  rcases withReg_cases (rfl : withReg i b s go = _) with ⟨r, -, hr⟩ | ⟨-, hbad⟩
  · exact hr ▸ h r
  · exact ⟨_, hbad⟩

/-- Two register operands lead to a next state if each two registers do. -/
theorem exists_next_withRegs {i : Instr} {opa opb : Byte} {s : State} {go : Reg → Reg → Outcome}
    (h : ∀ a b, ∃ t, go a b = .next t) : ∃ t, withRegs i opa opb s go = .next t :=
  exists_next_withReg fun a => exists_next_withReg (h a)

/-- A choice of two next states is a next state. -/
theorem exists_next_ite (p : Prop) [Decidable p] (t t' : State) :
    ∃ u, (if p then .next t else .next t' : Outcome) = .next u :=
  ⟨if p then t else t', (apply_ite Host.Outcome.next p t t').symm⟩

/-- Every instruction has a next state from every state. -/
theorem exists_next_exec (i : Instr) (s : State) : ∃ t, exec i s = .next t := by
  cases i with
  | hlt | ret => exact ⟨_, rfl⟩
  | push | pop | prn | jmp | not | ldi => exact exists_next_withReg fun _ => ⟨_, rfl⟩
  | call | jeq | jne => exact exists_next_withReg fun _ => exists_next_ite _ _ _
  | mod => exact exists_next_withRegs fun _ _ => exists_next_ite _ _ _
  | add | sub | mul | cmp | and | or | xor | shl | shr => exact exists_next_withRegs fun _ _ => ⟨_, rfl⟩

/-- Settles O32: a running step executes an instruction or takes a fetch fault, and each has a next state. -/
theorem stepExistsExactlyWhileRunning : Obligations.StepExistsExactlyWhileRunning := by
  refine fun c s => ⟨fun hrun => ?_, fun hrun => ?_, fun ⟨cause, info, hrun⟩ => ?_⟩
  · rcases stepWith_running (c := c) hrun with ⟨i, -, hstep⟩ | ⟨e, -, hstep⟩
    · exact hstep ▸ exists_next_exec i s
    · exact ⟨_, hstep⟩
  · simp only [stepWith, hrun]
  · simp only [stepWith, hrun]

/-! ### Where `pc` goes (rules R118, R121) -/

/-- Settles O33: an instruction that goes on and whose opcode has the `spc` bit clear passes its own bytes. -/
theorem sequentialInstructionsAdvanceByLength : Obligations.SequentialInstructionsAdvanceByLength := by
  intro i s t hspc _ h hrun
  refine ⟨?_, encode_length i⟩
  rcases (effect_of_exec h).stops_or_passes_or_jumps with ⟨hstop, -⟩ | hpc | ⟨hspc', -⟩
  · exact absurd hrun hstop
  · exact hpc
  · exact absurd (hspc.symm.trans hspc') Bool.false_ne_true

/-- The register a byte of 0 to 7 names is that of its low three bits. -/
@[simp] theorem low3_regByte (r : Reg) : low3 (regByte r) = r := by
  apply Fin.ext
  simp [low3, Nat.mod_eq_of_lt r.isLt]

/-- In a legal memory `pc` passes a fetched instruction without a wrap. -/
theorem State.pc_add_length_of_fetch {c : Config} {s : State} {i : Instr} (hc : c.legal) (hf : s.fetch c = .ok i) :
    (s.pc + BitVec.ofNat 16 (instrLength i.ir)).toNat = s.pc.toNat + instrLength i.ir := by
  have hfit := (State.fetch_ok hf).1
  have hcap := hc.2
  rw [encode_length] at hfit
  exact pc_add_toNat (by omega)

/-- In a legal memory the fall-through of a fetched two-byte control transfer does not wrap. -/
theorem State.ofNat_afterTwo_of_fetch {c : Config} {s : State} {i : Instr} (hc : c.legal) (hf : s.fetch c = .ok i)
    (hlen : instrLength i.ir = 2) : (BitVec.ofNat 16 s.afterTwo).toNat = s.pc.toNat + 2 := by
  rw [s.afterTwo_eq_add_length hlen, State.pc_add_length_of_fetch hc hf, hlen]

/-- The instructions that stop or set `pc` themselves: those with a row of their own in the table of rule R121. -/
def ownRow : List Mnemonic := [.hlt, .call, .ret, .jmp, .jeq, .jne]

/-- The opcode of an instruction without a row of its own is none of theirs. -/
theorem opcode_notMem_of_notMem_ownRow {m : Mnemonic} (hm : m ∉ ownRow) :
    opcode m ∉ ([0x01, 0x50, 0x11, 0x54, 0x55, 0x56] : List Byte) :=
  (List.mem_map_of_injective opcode_injective (l := ownRow)).not.2 hm

section Table

/-! The rows of the table of rule R121, for the instruction fetched. -/

variable {c : Config} {s : State}

/-- The last row: a sequential instruction goes on after its own bytes. -/
theorem nextPc_sequential {i : Instr} (hf : s.fetch c = .ok i) (hi : i.mnemonic ∉ ownRow) :
    nextPc s = s.pc.toNat + instrLength i.ir := by
  have hir : Memory.read s.mem s.pc.toNat = opcode i.mnemonic := State.ir_of_fetch hf
  have hrow := opcode_notMem_of_notMem_ownRow hi
  simp only [List.mem_cons, List.not_mem_nil, or_false, not_or] at hrow
  simp only [nextPc, hir, hrow, if_false]
  rfl

theorem nextPc_hlt (hf : s.fetch c = .ok .hlt) : nextPc s = s.pc.toNat :=
  if_pos (State.ir_of_fetch hf)

/-- CALL's target is read after the decrement of the stack pointer. -/
theorem nextPc_call {a : Reg} (hf : s.fetch c = .ok (.call (regByte a))) : nextPc s = (s.decSp.reg a).toNat := by
  have hir : Memory.read s.mem s.pc.toNat = 0x50 := State.ir_of_fetch hf
  have hopa := State.read_of_fetch hf 1 (regByte a) rfl
  simp [nextPc, hir, hopa, apply_ite BitVec.toNat, State.decSp_toNat]

theorem nextPc_ret (hf : s.fetch c = .ok .ret) : nextPc s = s.loadAtSp.toNat := by
  have hir : Memory.read s.mem s.pc.toNat = 0x11 := State.ir_of_fetch hf
  simp [nextPc, hir, State.loadAtSp, State.sp]

theorem nextPc_jmp {a : Reg} (hf : s.fetch c = .ok (.jmp (regByte a))) : nextPc s = (s.reg a).toNat := by
  have hir : Memory.read s.mem s.pc.toNat = 0x54 := State.ir_of_fetch hf
  have hopa := State.read_of_fetch hf 1 (regByte a) rfl
  simp [nextPc, hir, hopa]

theorem nextPc_jeq {a : Reg} (hf : s.fetch c = .ok (.jeq (regByte a))) :
    nextPc s = if s.flE then (s.reg a).toNat else s.pc.toNat + 2 := by
  have hir : Memory.read s.mem s.pc.toNat = 0x55 := State.ir_of_fetch hf
  have hopa := State.read_of_fetch hf 1 (regByte a) rfl
  simp [nextPc, hir, hopa, State.flE_eq]

theorem nextPc_jne {a : Reg} (hf : s.fetch c = .ok (.jne (regByte a))) :
    nextPc s = if s.flE then s.pc.toNat + 2 else (s.reg a).toNat := by
  have hir : Memory.read s.mem s.pc.toNat = 0x56 := State.ir_of_fetch hf
  have hopa := State.read_of_fetch hf 1 (regByte a) rfl
  simp [nextPc, hir, hopa, State.flE_eq]

end Table

/-- The two-register ALU operations are sequential. -/
theorem notMem_ownRow_of_writeTwo {mk : Byte → Byte → Instr}
    (hmk : mk ∈ [Instr.add, Instr.sub, Instr.mul, Instr.mod, Instr.and, Instr.or, Instr.xor, Instr.shl, Instr.shr])
    (a b : Byte) : (mk a b).mnemonic ∉ ownRow := by
  simp only [List.mem_cons, List.not_mem_nil, or_false] at hmk
  rcases hmk with rfl | rfl | rfl | rfl | rfl | rfl | rfl | rfl | rfl <;> simp [Instr.mnemonic, ownRow]

/-- What an instruction fetched from a legal memory does to `pc`, if it does not fault, is its row of the table. -/
theorem Effect.pc_eq_nextPc {c : Config} {i : Instr} {s t : State} (h : Effect i s t) (hc : c.legal)
    (hf : s.fetch c = .ok i) (hok : ¬ t.isFaulted) : t.pc.toNat = nextPc s := by
  have hseq (hi : i.mnemonic ∉ ownRow) : (s.pc + BitVec.ofNat 16 (instrLength i.ir)).toNat = nextPc s :=
    (State.pc_add_length_of_fetch hc hf).trans (nextPc_sequential hf hi).symm
  cases h with
  | badIndex | divideByZero | valueOutOfRange => exact absurd ⟨_, _, rfl⟩ hok
  | writeNot | writeLdi | compare | print | push | pop => exact hseq (by simp [Instr.mnemonic, ownRow])
  | writeTwo mk a b v _ hmk => exact hseq (notMem_ownRow_of_writeTwo hmk _ _)
  | hlt => exact (nextPc_hlt hf).symm
  | call a => exact (zext16_toNat _).trans (nextPc_call hf).symm
  | ret => exact (zext16_toNat _).trans (nextPc_ret hf).symm
  | jmp a => exact (zext16_toNat _).trans (nextPc_jmp hf).symm
  | jeq a =>
    rw [nextPc_jeq hf, State.pc_jumpTo, apply_ite BitVec.toNat, zext16_toNat,
      State.ofNat_afterTwo_of_fetch hc hf (encode_length _).symm]
  | jne a =>
    rw [nextPc_jne hf, State.pc_jumpTo, apply_ite BitVec.toNat, zext16_toNat,
      State.ofNat_afterTwo_of_fetch hc hf (encode_length _).symm]

/-- A failed fetch ends at the error exit. -/
theorem State.isFaulted_takeFetchFault (s : State) (e : DecodeError) : (s.takeFetchFault e).isFaulted := by
  cases e <;> exact ⟨_, _, rfl⟩

/-- Settles O34: a fetch fault is a fault, and an instruction follows its row of the table. -/
theorem nextPcFollowsTable : Obligations.NextPcFollowsTable := by
  intro c s t hc h hok
  obtain ⟨-, ⟨i, hf, he⟩ | ⟨e, -, rfl⟩⟩ := stepWith_cases h
  · exact he.pc_eq_nextPc hc hf hok
  · exact absurd (s.isFaulted_takeFetchFault e) hok

end Sys2Proof.Machine
end

section
/-! PROOFS. The ALU (spec 41_alu.md): the value of each operation as a number (rules R141 to R151), the rule of an
instruction with two register operands and one result, and CMP as the only writer of `FL` (rule R154). -/

namespace Sys2Proof.Machine

open Claims

/-! ### The values (rules R141 to R151) -/

theorem aluAdd_toNat (va vb : Byte) : (aluAdd va vb).toNat = (va.toNat + vb.toNat) % 256 := by
  exact_mod_cast trunc8_natCast_toNat (va.toNat + vb.toNat)

theorem aluSub_toNat (va vb : Byte) :
    (aluSub va vb).toNat = if va.toNat < vb.toNat then 256 + va.toNat - vb.toNat else va.toNat - vb.toNat := by
  have ha := va.isLt
  have hsub : (aluSub va vb).toNat = (va.toNat + 256 - vb.toNat) % 256 := trunc8_sub_toNat _ _ va.isLt vb.isLt
  rw [hsub]
  split_ifs <;> omega

theorem aluMul_toNat (va vb : Byte) : (aluMul va vb).toNat = va.toNat * vb.toNat % 256 := by
  exact_mod_cast trunc8_natCast_toNat (va.toNat * vb.toNat)

/-- A remainder is no more than the dividend, so it fits the byte. -/
theorem aluMod_toNat (va vb : Byte) : (aluMod va vb).toNat = va.toNat % vb.toNat :=
  trunc8_natCast_of_lt ((Nat.mod_le _ _).trans_lt va.isLt)

/-- An amount of 8 or more leaves a multiple of 256. -/
theorem aluShl_toNat (va vb : Byte) :
    (aluShl va vb).toNat = if 8 ≤ vb.toNat then 0 else va.toNat * 2 ^ vb.toNat % 256 := by
  have hshl : (aluShl va vb).toNat = va.toNat * 2 ^ vb.toNat % 256 := trunc8_natCast_toNat _
  rw [hshl]
  split_ifs with h8
  · have hdvd : 2 ^ 8 ∣ 2 ^ vb.toNat := Nat.pow_dvd_pow 2 h8
    exact Nat.mod_eq_zero_of_dvd (hdvd.mul_left _)
  · rfl

/-- An amount of 8 or more divides a byte by more than its value. -/
theorem aluShr_toNat (va vb : Byte) :
    (aluShr va vb).toNat = if 8 ≤ vb.toNat then 0 else va.toNat / 2 ^ vb.toNat := by
  have hshr : (aluShr va vb).toNat = va.toNat / 2 ^ vb.toNat :=
    trunc8_natCast_of_lt ((Nat.div_le_self _ _).trans_lt va.isLt)
  rw [hshr]
  split_ifs with h8
  · have hpow : 2 ^ 8 ≤ 2 ^ vb.toNat := Nat.pow_le_pow_right (by decide) h8
    exact Nat.div_eq_of_lt (va.isLt.trans_le hpow)
  · rfl

theorem aluNot_toNat (va : Byte) : (aluNot va).toNat = 255 - va.toNat := by
  have hcast : (255 : Int) - va.toNat = ((255 - va.toNat : Nat) : Int) := by
    have := va.isLt
    omega
  rw [aluNot, hcast]
  exact trunc8_natCast_of_lt (by omega)

/-- The two forms of the complement in rule R149. -/
theorem aluNot_eq_xor (va : Byte) : aluNot va = va ^^^ 0xFF := by
  have hones : (0xFF : Byte) = BitVec.allOnes 8 := rfl
  rw [hones, BitVec.xor_allOnes]
  apply BitVec.eq_of_toNat_eq
  rw [aluNot_toNat, BitVec.toNat_not]

/-! ### The flags of a comparison (rule R145) -/

theorem compareFlags_of_eq {va vb : Byte} (h : va = vb) : compareFlags va vb = flagE :=
  if_pos (congrArg BitVec.toNat h)

theorem compareFlags_of_lt {va vb : Byte} (h : va.toNat < vb.toNat) : compareFlags va vb = flagL :=
  (if_neg h.ne).trans (if_pos h)

theorem compareFlags_of_gt {va vb : Byte} (h : vb.toNat < va.toNat) : compareFlags va vb = flagG :=
  (if_neg h.ne').trans (if_neg h.asymm)

/-! ### The shape of the instructions (rules R140, R153, R154) -/

/-- An instruction's opcode byte tells the length of its encoding. -/
theorem instrLength_of_encode {i : Instr} {bytes : List Byte} (h : encode i = bytes) :
    instrLength i.ir = bytes.length := by
  rw [← encode_length, h]

/-- What the write of one register leaves as it was, and where `pc` goes then. -/
theorem State.setReg_advance_frame (s : State) (r : Reg) (v : Byte) {ir : Byte} {n : Nat} (hn : instrLength ir = n) :
    SameRegsBut s ((s.setReg r v).advance ir) [r] ∧ ((s.setReg r v).advance ir).fl = s.fl ∧
      ((s.setReg r v).advance ir).pc = s.pc + BitVec.ofNat 16 n ∧ SameMem s ((s.setReg r v).advance ir) ∧
      ((s.setReg r v).advance ir).out = s.out ∧ ((s.setReg r v).advance ir).run = s.run := by
  subst hn
  exact ⟨fun k hk => State.reg_setReg_ne s v (List.ne_of_not_mem_cons hk), rfl, rfl, fun _ => rfl, rfl, rfl⟩

/-- An instruction of the shape `aluTwo` follows the rule of two register operands, with the value its operation has as a
number. -/
theorem twoRegisterRule_of_aluTwo {mk : Byte → Byte → Instr} {op : Byte} {g : Byte → Byte → Byte} {f : Nat → Nat → Nat}
    (hexec : ∀ a b s, exec (mk a b) s = aluTwo mk g a b s) (hbytes : ∀ a b, encode (mk a b) = [op, a, b])
    (hvalue : ∀ va vb, (g va vb).toNat = f va.toNat vb.toNat) : TwoRegisterRule mk op f := by
  refine ⟨hbytes, fun a b s ha => ?_, fun ra b s hb => ?_, fun ra rb s => ?_⟩
  · exact (hexec _ _ s).trans (withRegs_bad_first _ ha s _)
  · exact (hexec _ _ s).trans (withRegs_bad_second _ ra hb s _)
  · refine ⟨_, (hexec _ _ s).trans (withRegs_regByte _ ra rb s _), ?_, ?_⟩
    · rw [State.reg_advance, State.reg_setReg_same, hvalue]
    · exact s.setReg_advance_frame ra _ (instrLength_of_encode (hbytes _ _))

/-! ### The instructions of that shape -/

/-- Settles O1: the value of `aluAdd`. -/
theorem addWritesSumModulo256 : Obligations.AddWritesSumModulo256 :=
  twoRegisterRule_of_aluTwo (fun _ _ _ => rfl) (fun _ _ => rfl) aluAdd_toNat

/-- Settles O2: the value of `aluSub`. -/
theorem subWritesDifferenceModulo256 : Obligations.SubWritesDifferenceModulo256 :=
  twoRegisterRule_of_aluTwo (fun _ _ _ => rfl) (fun _ _ => rfl) aluSub_toNat

/-- Settles O3: the value of `aluMul`. -/
theorem mulWritesProductModulo256 : Obligations.MulWritesProductModulo256 :=
  twoRegisterRule_of_aluTwo (fun _ _ _ => rfl) (fun _ _ => rfl) aluMul_toNat

/-- Settles O6: the bits of a conjunction are those of the numbers. -/
theorem andWritesBitwiseAnd : Obligations.AndWritesBitwiseAnd :=
  twoRegisterRule_of_aluTwo (fun _ _ _ => rfl) (fun _ _ => rfl) BitVec.toNat_and

/-- Settles O7: the bits of a disjunction are those of the numbers. -/
theorem orWritesBitwiseOr : Obligations.OrWritesBitwiseOr :=
  twoRegisterRule_of_aluTwo (fun _ _ _ => rfl) (fun _ _ => rfl) BitVec.toNat_or

/-- Settles O8: the bits of an exclusive or are those of the numbers. -/
theorem xorWritesBitwiseXor : Obligations.XorWritesBitwiseXor :=
  twoRegisterRule_of_aluTwo (fun _ _ _ => rfl) (fun _ _ => rfl) BitVec.toNat_xor

/-- Settles O10: the value of `aluShl`. -/
theorem shlShiftsLeftByWholeByte : Obligations.ShlShiftsLeftByWholeByte :=
  twoRegisterRule_of_aluTwo (fun _ _ _ => rfl) (fun _ _ => rfl) aluShl_toNat

/-- Settles O11: the value of `aluShr`. -/
theorem shrShiftsRightLogically : Obligations.ShrShiftsRightLogically :=
  twoRegisterRule_of_aluTwo (fun _ _ _ => rfl) (fun _ _ => rfl) aluShr_toNat

/-! ### MOD, NOT and CMP -/

/-- MOD by a register that holds 0 faults. -/
theorem exec_mod_of_eq_zero (ra : Reg) {rb : Reg} {s : State} (h : s.reg rb = 0) :
    exec (.mod (regByte ra) (regByte rb)) s =
      .next (s.takeFault .divideByZero (encode (.mod (regByte ra) (regByte rb))) 0xA4) :=
  (withRegs_regByte _ ra rb s _).trans (if_pos h)

/-- MOD by any other register writes the remainder and advances. -/
theorem exec_mod_of_ne_zero (ra : Reg) {rb : Reg} {s : State} (h : s.reg rb ≠ 0) :
    exec (.mod (regByte ra) (regByte rb)) s =
      .next ((s.setReg ra (aluMod (s.reg ra) (s.reg rb))).advance (opcode .mod)) :=
  (withRegs_regByte _ ra rb s _).trans (if_neg h)

/-- Settles O4: the remainder as a number, by cases on the divisor. -/
theorem modWritesRemainderOrFaultsOnZero : Obligations.ModWritesRemainderOrFaultsOnZero := by
  refine ⟨fun _ _ => rfl, fun a b s ha => ?_, fun ra b s hb => ?_, fun ra rb s h0 => ?_, fun ra rb s h0 => ?_⟩
  · exact withRegs_bad_first (.mod a b) ha s _
  · exact withRegs_bad_second (.mod (regByte ra) b) ra hb s _
  · exact exec_mod_of_eq_zero ra h0
  · refine ⟨_, exec_mod_of_ne_zero ra h0, ?_, ?_, s.setReg_advance_frame ra _ (by decide : _ = 3)⟩
    · rw [State.reg_advance, State.reg_setReg_same, aluMod_toNat, Nat.mod_def]
    · have hpos : 0 < (s.reg rb).toNat := Nat.pos_of_ne_zero fun h => h0 (BitVec.eq_of_toNat_eq h)
      rw [State.reg_advance, State.reg_setReg_same, aluMod_toNat]
      exact Nat.mod_lt _ hpos

/-- Settles O9: the complement as a number and as bits. -/
theorem notWritesComplement : Obligations.NotWritesComplement := by
  refine ⟨⟨fun _ => rfl, fun a s ha => withReg_bad (.not a) ha s _⟩, fun ra s => ?_⟩
  refine ⟨_, withReg_regByte _ ra s _, ?_, ?_, s.setReg_advance_frame ra _ (by decide : _ = 2)⟩
  · rw [State.reg_advance, State.reg_setReg_same, aluNot_toNat]
  · rw [State.reg_advance, State.reg_setReg_same, aluNot_eq_xor]

/-- Settles O5: the flags, by the three ways two values compare. -/
theorem cmpSetsExactlyOneFlag : Obligations.CmpSetsExactlyOneFlag := by
  refine ⟨fun _ _ => rfl, fun a b s ha => ?_, fun ra b s hb => ?_, fun ra rb s => ?_⟩
  · exact withRegs_bad_first (.cmp a b) ha s _
  · exact withRegs_bad_second (.cmp (regByte ra) b) ra hb s _
  · exact ⟨_, withRegs_regByte _ ra rb s _, compareFlags_of_eq, compareFlags_of_lt, compareFlags_of_gt,
      fun _ _ => rfl, rfl, fun _ => rfl, rfl, rfl⟩

/-! ### Who writes `FL` (rule R154) -/

/-- An instruction that changes `FL` is a CMP of two registers. -/
theorem Effect.changed_fl {i : Instr} {s t : State} (h : Effect i s t) (hfl : t.fl ≠ s.fl) :
    ∃ a b : Reg, i = .cmp (regByte a) (regByte b) := by
  cases h with
  | compare a b => exact ⟨a, b, rfl⟩
  | _ => exact absurd rfl hfl

@[simp] theorem State.fl_takeFetchFault (s : State) (e : DecodeError) : (s.takeFetchFault e).fl = s.fl := by
  cases e <;> rfl

/-- Settles O40: a fetch fault leaves `FL`, and so does every instruction but a CMP of two registers. -/
theorem onlyCmpWritesFlags : Obligations.OnlyCmpWritesFlags := by
  constructor
  · intro i s t h hcmp
    by_contra hfl
    obtain ⟨a, b, hi⟩ := (effect_of_exec h).changed_fl hfl
    exact hcmp _ _ hi
  · intro c s t h hfl
    obtain ⟨-, ⟨i, hf, he⟩ | ⟨e, -, rfl⟩⟩ := stepWith_cases h
    · obtain ⟨a, b, rfl⟩ := he.changed_fl hfl
      exact ⟨a, b, hf⟩
    · exact absurd (s.fl_takeFetchFault e) hfl

end Sys2Proof.Machine
end

section
/-! PROOFS. LDI and PRN (spec 42_load_and_output.md): what each does with a register (rules R170, R171), and PRN as the only
instruction that emits. -/

namespace Sys2Proof.Machine

open Claims

/-- LDI to a register writes the immediate and advances. -/
theorem exec_ldi (r : Reg) (imm : Byte) (s : State) :
    exec (.ldi (regByte r) imm) s = .next ((s.setReg r imm).advance 0x82) :=
  withReg_regByte _ r s _

/-- Settles O12: the written register reads as the immediate, and the write of one register has the frame. -/
theorem ldiLoadsImmediate : Obligations.LdiLoadsImmediate := by
  refine ⟨fun _ _ => rfl, fun a imm s ha => withReg_bad (.ldi a imm) ha s _, fun ra imm s => ?_⟩
  refine ⟨_, exec_ldi ra imm s, ?_, s.setReg_advance_frame ra imm (by decide : _ = 3)⟩
  rw [State.reg_advance, State.reg_setReg_same]

/-- An instruction that changes the output stream is a PRN of a register. -/
theorem Effect.changed_out {i : Instr} {s t : State} (h : Effect i s t) (hout : t.out ≠ s.out) :
    ∃ a : Reg, i = .prn (regByte a) := by
  cases h with
  | print a => exact ⟨a, rfl⟩
  | _ => exact absurd rfl hout

/-- Settles O13: PRN of a register emits its value, and no other effect changes the stream. -/
theorem prnEmitsRegister : Obligations.PrnEmitsRegister := by
  refine ⟨⟨fun _ => rfl, fun a s ha => withReg_bad (.prn a) ha s _⟩, fun ra s => ?_, fun i s t h hout => ?_⟩
  · exact ⟨_, exec_prn ra s, State.out_emit s (s.reg ra), fun _ _ => rfl, rfl, rfl, fun _ => rfl, rfl⟩
  · exact (effect_of_exec h).changed_out hout

end Sys2Proof.Machine
end

section
/-! PROOFS. The stack (spec 43_stack.md): what PUSH and POP of a register do (rules R181, R183), and that the two undo each
other (rule R184). -/

namespace Sys2Proof.Machine

open Claims

/-! ### The cell at the stack pointer (rules R180, R182) -/

/-- A decrement takes the stack pointer one down, wrapping. -/
theorem State.sp_decSp_toNat (s : State) : s.decSp.sp.toNat = ((s.reg 7).toNat + 255) % 256 := by
  rw [State.sp_decSp, State.decSp_toNat]

/-- An increment takes the stack pointer one up, wrapping. -/
theorem State.sp_incSp_toNat (s : State) : s.incSp.sp.toNat = (s.sp.toNat + 1) % 256 := by
  rw [State.sp_incSp, trunc8_succ_toNat]

/-- A decrement leaves every register but the stack pointer as it was. -/
theorem State.reg_decSp_ne (s : State) {k : Reg} (h : k ≠ 7) : s.decSp.reg k = s.reg k :=
  State.reg_setReg_ne s _ h

/-- An increment leaves every register but the stack pointer as it was. -/
theorem State.reg_incSp_ne (s : State) {k : Reg} (h : k ≠ 7) : s.incSp.reg k = s.reg k :=
  State.reg_setReg_ne s _ h

/-- A load at the stack pointer reads back the store there, in a canonical memory. -/
theorem State.loadAtSp_storeAtSp (s : State) (h : Memory.wf s.mem = true) (v : Byte) : (s.storeAtSp v).loadAtSp = v :=
  Memory.read_write_same s.mem h s.stackAddr v

/-- A register that takes the value it holds leaves the state as it was. -/
theorem State.setReg_reg_self (s : State) (r : Reg) : s.setReg r (s.reg r) = s := by
  simp [State.setReg, State.reg]

/-! ### PUSH (rule R181) -/

/-- Settles O15: PUSH is a decrement of the stack pointer and a store at the address that leaves. -/
theorem pushStoresBelowStackPointer : Obligations.PushStoresBelowStackPointer := by
  refine ⟨⟨fun _ => rfl, fun a s ha => withReg_bad (.push a) ha s _⟩, fun s => ?_, fun ra s => ?_⟩
  · exact s.decSp.stackAddr_eq.trans s.sp_decSp_toNat
  · refine ⟨_, exec_push ra s, s.sp_decSp_toNat, fun k hk => ?_, fun addr haddr => ?_, rfl, rfl, rfl, rfl⟩
    · exact s.reg_decSp_ne (List.ne_of_not_mem_cons hk)
    · subst haddr
      exact ⟨fun a ha => Memory.read_write_ne s.mem _ ha, fun hs => s.decSp.loadAtSp_storeAtSp hs _⟩

/-! ### POP (rule R183) -/

/-- POP of a register loads the cell at the stack pointer, increments the stack pointer and advances. -/
theorem exec_pop (r : Reg) (s : State) :
    exec (.pop (regByte r)) s = .next ((s.setReg r s.loadAtSp).incSp.advance (opcode .pop)) :=
  withReg_regByte _ r s _

/-- Settles O16: the increment finds the loaded value in register 7, and the old stack pointer after any other load. -/
theorem popLoadsThenIncrements : Obligations.PopLoadsThenIncrements := by
  refine ⟨⟨fun _ => rfl, fun a s ha => withReg_bad (.pop a) ha s _⟩, State.stackAddr_eq, fun ra s => ?_⟩
  have hsp := (s.setReg ra s.loadAtSp).sp_incSp_toNat
  refine ⟨_, exec_pop ra s, fun hra => ⟨?_, ?_⟩, fun hra => ?_, fun k hk => ?_, fun _ => rfl, rfl, rfl, rfl, rfl⟩
  · exact (State.reg_incSp_ne _ hra).trans (s.reg_setReg_same ra _)
  · rwa [State.sp, State.sp, State.reg_setReg_ne s _ hra.symm] at hsp
  · subst hra
    rwa [State.sp, State.sp, State.reg_setReg_same] at hsp
  · obtain ⟨hra, h7⟩ : k ≠ ra ∧ k ≠ 7 := by simpa using hk
    exact (State.reg_incSp_ne _ h7).trans (State.reg_setReg_ne s _ hra)

/-! ### PUSH, then POP (rule R184) -/

/-- Where the cell at the stack pointer holds what the register holds, POP of the register only increments and advances. -/
theorem exec_pop_of_loadAtSp_eq {r : Reg} {s : State} (h : s.loadAtSp = s.reg r) :
    exec (.pop (regByte r)) s = .next (s.incSp.advance (opcode .pop)) := by
  rw [exec_pop, h, State.setReg_reg_self]

/-- Settles O17: after PUSH the register holds what POP loads, so POP only undoes the decrement. -/
theorem pushThenPopRestoresRegisters : Obligations.PushThenPopRestoresRegisters := by
  intro ra s hs
  refine ⟨_, _, exec_push ra s, exec_pop_of_loadAtSp_eq (s.decSp.loadAtSp_storeAtSp hs _), fun k _ => ?_,
    fun a ha => Memory.read_write_ne s.mem _ ha, ?_, rfl, rfl, rfl⟩
  · obtain rfl | hk := eq_or_ne k 7
    · rw [State.reg_advance, State.reg_incSp, if_pos rfl, State.sp_advance, State.sp_storeAtSp, State.sp_decSp,
        trunc8_succ_pred, State.sp]
    · exact (State.reg_incSp_ne _ hk).trans (s.reg_decSp_ne hk)
  · exact BitVec.add_assoc s.pc 2 2

end Sys2Proof.Machine
end

section
/-! PROOFS. Control transfers (spec 44_control_transfer.md): what JMP, JEQ and JNE to a register do (rules R193 to R195),
what CALL and RET do (rules R191, R192), and that RET returns to just after its CALL (rule R196). -/

namespace Sys2Proof.Machine

open Claims

/-! ### Jumps (rules R193 to R195) -/

/-- A jump writes `pc` only. -/
theorem State.jumpTo_frame (s : State) (p : PcWord) :
    SameRegsBut s (s.jumpTo p) [] ∧ SameMem s (s.jumpTo p) ∧ (s.jumpTo p).fl = s.fl ∧ (s.jumpTo p).out = s.out ∧
      (s.jumpTo p).run = s.run :=
  ⟨fun _ _ => rfl, fun _ => rfl, rfl, rfl, rfl⟩

/-- JMP to a register jumps to its value. -/
theorem exec_jmp (r : Reg) (s : State) : exec (.jmp (regByte r)) s = .next (s.jumpTo (zext16 (s.reg r))) :=
  withReg_regByte _ r s _

/-- JEQ of a register jumps to its value or to the fall-through, by the equal flag. -/
theorem exec_jeq (r : Reg) (s : State) :
    exec (.jeq (regByte r)) s = .next (s.jumpTo (if s.flE then zext16 (s.reg r) else BitVec.ofNat 16 s.afterTwo)) := by
  rw [apply_ite s.jumpTo, apply_ite Host.Outcome.next]
  exact withReg_regByte _ r s _

/-- JNE of a register jumps to the fall-through or to its value, by the equal flag. -/
theorem exec_jne (r : Reg) (s : State) :
    exec (.jne (regByte r)) s = .next (s.jumpTo (if s.flE then BitVec.ofNat 16 s.afterTwo else zext16 (s.reg r))) := by
  rw [apply_ite s.jumpTo, apply_ite Host.Outcome.next]
  exact withReg_regByte _ r s _

/-- The equal flag is set exactly when `FL` is odd. -/
theorem State.flE_iff (s : State) : s.flE = true ↔ s.fl.toNat % 2 = 1 := by
  rw [State.flE_eq, decide_eq_true_iff]

/-- The equal flag is clear where `FL` is even. -/
theorem State.not_flE_of_even {s : State} (h : s.fl.toNat % 2 = 0) : ¬ s.flE = true := fun hE =>
  Nat.zero_ne_one (h.symm.trans (s.flE_iff.1 hE))

/-- Settles O20: JMP is one jump. -/
theorem jmpJumpsToRegister : Obligations.JmpJumpsToRegister := by
  refine ⟨⟨fun _ => rfl, fun a s ha => withReg_bad (.jmp a) ha s _⟩, fun ra s => ?_⟩
  exact ⟨_, exec_jmp ra s, zext16_toNat (s.reg ra), s.jumpTo_frame _⟩

/-- Settles O21: the jump is to the register where `FL` is odd, and to the fall-through where it is even. -/
theorem jeqBranchesExactlyWhenEqual : Obligations.JeqBranchesExactlyWhenEqual := by
  refine ⟨⟨fun _ => rfl, fun a s ha => withReg_bad (.jeq a) ha s _⟩, fun ra s => ?_⟩
  refine ⟨_, exec_jeq ra s, fun hodd => ?_, fun heven => ?_, s.jumpTo_frame _⟩
  · rw [State.pc_jumpTo, if_pos (s.flE_iff.2 hodd), zext16_toNat]
  · rw [State.pc_jumpTo, if_neg (State.not_flE_of_even heven), State.afterTwo_eq]

/-- Settles O22: the jump is to the register where `FL` is even, and to the fall-through where it is odd. -/
theorem jneBranchesExactlyWhenNotEqual : Obligations.JneBranchesExactlyWhenNotEqual := by
  refine ⟨⟨fun _ => rfl, fun a s ha => withReg_bad (.jne a) ha s _⟩, fun ra s => ?_⟩
  refine ⟨_, exec_jne ra s, fun heven => ?_, fun hodd => ?_, s.jumpTo_frame _⟩
  · rw [State.pc_jumpTo, if_neg (State.not_flE_of_even heven), zext16_toNat]
  · rw [State.pc_jumpTo, if_pos (s.flE_iff.2 hodd), State.afterTwo_eq]

/-! ### CALL (rule R191) -/

/-- CALL of a register takes a fault where the return address does not fit one cell. -/
theorem exec_call_of_gt (r : Reg) {s : State} (h : 0xFF < s.afterTwo) :
    exec (.call (regByte r)) s = .next (s.takeFault .valueOutOfRange (encode (.call (regByte r))) s.afterTwo) :=
  (withReg_regByte _ r s _).trans (if_pos h)

/-- A return address that fits one cell is the byte stored there. -/
theorem State.returnByte_toNat {s : State} (h : s.afterTwo ≤ 0xFF) : (BitVec.ofNat 8 s.afterTwo).toNat = s.afterTwo :=
  (BitVec.toNat_ofNat _ _).trans (Nat.mod_eq_of_lt (Nat.lt_succ_of_le h))

/-- Settles O18: CALL is a decrement of the stack pointer, a store at the address that leaves, and a jump. -/
theorem callPushesReturnAddressAndJumps : Obligations.CallPushesReturnAddressAndJumps := by
  refine ⟨⟨fun _ => rfl, fun a s ha => withReg_bad (.call a) ha s _⟩, fun ra s hbig => exec_call_of_gt ra hbig,
    fun s => ?_, fun ra s hfits => ?_⟩
  · exact s.decSp.stackAddr_eq.trans s.sp_decSp_toNat
  · refine ⟨_, exec_call ra hfits, s.sp_decSp_toNat, fun k hk => ?_, fun addr haddr => ?_, zext16_toNat _, rfl, rfl, rfl⟩
    · exact s.reg_decSp_ne (List.ne_of_not_mem_cons hk)
    · subst haddr
      refine ⟨fun a ha => Memory.read_write_ne s.mem _ ha, fun hs => ?_⟩
      calc (s.decSp.storeAtSp (BitVec.ofNat 8 s.afterTwo)).loadAtSp.toNat
        _ = (BitVec.ofNat 8 s.afterTwo).toNat := by rw [s.decSp.loadAtSp_storeAtSp hs]
        _ = s.pc.toNat + 2 := State.returnByte_toNat hfits

/-! ### RET (rule R192) -/

/-- RET jumps to the cell at the stack pointer and increments the stack pointer. -/
theorem exec_ret (s : State) : exec .ret s = .next (s.incSp.jumpTo (zext16 s.loadAtSp)) := rfl

/-- A load at the stack pointer reads the cell that register 7 names. -/
theorem State.loadAtSp_eq (s : State) : s.loadAtSp = Memory.read s.mem (s.reg 7).toNat := by
  rw [State.loadAtSp, State.stackAddr_eq, State.sp]

/-- Settles O19: RET is a load at the stack pointer, an increment and a jump. -/
theorem retJumpsToByteAtStackPointer : Obligations.RetJumpsToByteAtStackPointer := by
  refine ⟨rfl, fun s => ⟨_, exec_ret s, ?_, s.sp_incSp_toNat, fun k hk => ?_, fun _ => rfl, rfl, rfl, rfl⟩⟩
  · rw [State.pc_jumpTo, zext16_toNat, State.loadAtSp_eq]
  · exact s.reg_incSp_ne (List.ne_of_not_mem_cons hk)

/-! ### CALL, then RET (rule R196) -/

/-- An increment undoes a decrement of the stack pointer. -/
theorem State.sp_incSp_of_eq_decSp {s u : State} (h : u.sp = s.decSp.sp) : u.incSp.sp = s.sp := by
  rw [State.sp_incSp, h, State.sp_decSp, trunc8_succ_pred]

/-- Settles O23: RET loads the byte that CALL stored and undoes its decrement. -/
theorem callThenRetReturnsAfterCall : Obligations.CallThenRetReturnsAfterCall := by
  intro ra s hs hfits
  refine ⟨_, exec_call ra hfits, fun u hsp hcell => ⟨_, exec_ret u, ?_, State.sp_incSp_of_eq_decSp hsp⟩⟩
  have hload : u.loadAtSp = BitVec.ofNat 8 s.afterTwo := by
    rw [State.loadAtSp_eq, hsp, hcell, ← State.loadAtSp_eq]
    exact s.decSp.loadAtSp_storeAtSp hs _
  rw [State.pc_jumpTo, zext16_toNat, hload, State.returnByte_toNat hfits, State.afterTwo]

end Sys2Proof.Machine
end

section
/-! PROOFS. HLT (spec 45_system.md): what it does (rule R210), that a halted machine has no step (rule R122), and that no other
instruction and no fetch fault halts. -/

namespace Sys2Proof.Machine

open Claims

/-- HLT halts. -/
theorem exec_hlt (s : State) : exec .hlt s = .next s.halt := rfl

/-- A halted machine has no step, whatever its capacity. -/
theorem stepWith_of_halted (c : Config) {s : State} (h : s.run = .halted) : stepWith c s = .fault .stoppedHalted := by
  obtain ⟨-, hstop, -⟩ := stepExistsExactlyWhileRunning c s
  exact hstop h

/-- An instruction that halts a running machine is HLT: any other leaves `run` or takes a fault. -/
theorem Effect.eq_hlt_of_halted {i : Instr} {s t : State} (h : Effect i s t) (hs : s.run = .running)
    (ht : t.run = .halted) : i = .hlt := by
  cases h with
  | hlt => rfl
  | badIndex | divideByZero | valueOutOfRange => cases ht
  | _ => cases hs.symm.trans ht

/-- A faulted machine is not halted. -/
theorem State.run_ne_halted_of_isFaulted {s : State} (h : s.isFaulted) : s.run ≠ .halted := by
  obtain ⟨cause, info, hrun⟩ := h
  rw [hrun]
  exact nofun

/-- Settles O14: HLT writes `run` only, and every other way a step can end leaves the machine running or faulted. -/
theorem hltHaltsWithStateIntact : Obligations.HltHaltsWithStateIntact := by
  refine ⟨rfl, fun s => ?_, fun c s t h hhalt => ?_⟩
  · exact ⟨_, exec_hlt s, s.run_halt, fun _ _ => rfl, rfl, rfl, fun _ => rfl, rfl,
      fun c => stepWith_of_halted c s.run_halt⟩
  · obtain ⟨hrun, ⟨i, hf, he⟩ | ⟨e, -, rfl⟩⟩ := stepWith_cases h
    · rw [hf, he.eq_hlt_of_halted hrun hhalt]
    · exact absurd hhalt (State.run_ne_halted_of_isFaulted (s.isFaulted_takeFetchFault e))

end Sys2Proof.Machine
end

section
/-! PROOFS. The interfaces (spec 50_interfaces.md): the Loader's contract (rule R221), the image that does not fit and
the empty image (rule R222), and the invariant at the start of the execute stage. -/

namespace Sys2Proof.Machine

/-- An image that fits is placed from cell 0 on, and nothing but memory is written. -/
theorem loadImage_of_le {c : Config} {image : List Byte} (h : image.length ≤ c.memCells) (s : State) :
    loadImage c image s = some (s.withMem (Memory.writeBytes s.mem 0 image)) :=
  if_pos h

/-- An image longer than memory is refused. -/
theorem loadImage_of_gt {c : Config} {image : List Byte} (h : c.memCells < image.length) (s : State) :
    loadImage c image s = none :=
  if_neg (Nat.not_le.2 h)

/-- After bytes are placed from cell 0 on, a cell reads as its byte if it has one, and as before if not. -/
theorem Memory.read_writeBytes_zero {m : Memory} (h : Memory.wf m = true) (bs : List Byte) (a : Nat) :
    Memory.read (Memory.writeBytes m 0 bs) a = bs[a]?.getD (Memory.read m a) :=
  (Memory.read_writeBytes m h 0 bs a).trans (if_pos (Nat.zero_le a))

/-- Settles O49: a cell below the length has a byte of the image, a cell from the length on has none. -/
theorem loaderWritesTheImageAndNothingElse : Obligations.LoaderWritesTheImageAndNothingElse := by
  intro c image hfits
  refine ⟨_, loadImage_of_le hfits _, fun i hi => ?_, fun a ha => ?_, fun _ _ => rfl, rfl, rfl, rfl, rfl⟩
  · exact (Memory.read_writeBytes_zero reset_mem_wf image i).trans
      (by rw [List.getElem?_eq_getElem hi, Option.getD_some])
  · exact (Memory.read_writeBytes_zero reset_mem_wf image a).trans
      (by rw [List.getElem?_eq_none ha, Option.getD_none])

/-- Settles O52: the reset state is sound, and loading keeps that. -/
theorem loadedStateIsSound : Obligations.LoadedStateIsSound :=
  fun c _ _ hc hload => (resetStateIsSound c hc).loadImage rfl hload

/-- With nothing loaded, the first step reads 0x00 at address 0, which is no opcode. -/
theorem stepWith_reset {c : Config} (hc : c.legal) :
    stepWith c State.reset = .next (State.reset.takeFault .invalidInstruction [0] 0) := by
  have hpc : State.reset.pc.toNat < c.memCells := Nat.lt_of_lt_of_le (by decide) hc.1
  have hread : Memory.read State.reset.mem State.reset.pc.toNat = 0 := rfl
  rw [State.step_of_unrecognised hpc (ne_opcode_of_notMem_tableOpcodes (by decide) (by decide)) rfl, hread]
  rfl

/-- Settles O50: the length decides whether the image loads, and the empty one leaves the reset state. -/
theorem loaderBoundsAndEmptyImage : Obligations.LoaderBoundsAndEmptyImage :=
  ⟨fun _ _ s h => loadImage_of_gt h s, fun _ hc =>
    ⟨State.reset, _, _, loadImage_of_le (Nat.zero_le _) _, stepWith_reset hc, rfl, rfl, rfl, rfl, rfl, rfl⟩⟩

end Sys2Proof.Machine
end

section
/-! PROOFS. The faults (spec 60_exceptions.md): the cause codes (rule R240), the first fault in the order of checks (rule
R248), and what a fault leaves (rule R243). The order of checks is cut where the machine cuts it: no opcode byte, a byte in no
row, an operand byte that does not exist, and the instruction fetched. -/

namespace Sys2Proof.Machine

open Claims

/-! ### The cause codes (rule R240) -/

/-- The causes in the order of the table of rule R240. -/
def faultCauses : List FaultCause :=
  [.invalidInstruction, .unsupportedALUOperation, .addressOutOfRange, .registerIndexOutOfRange, .divideByZero,
    .valueOutOfRange]

/-- A cause stands in the table at its code, counted from 1. -/
theorem faultCauses_getElem?_code (cause : FaultCause) : faultCauses[cause.code - 1]? = some cause := by
  cases cause <;> rfl

/-- Settles O39: the code says where the cause stands in the table. -/
theorem faultCausesAreNumberedOneToSix : Obligations.FaultCausesAreNumberedOneToSix := by
  refine ⟨rfl, fun cause cause' h => Option.some.inj ?_⟩
  rw [← faultCauses_getElem?_code, ← faultCauses_getElem?_code, h]

/-! ### The bytes fetched (rules R35, R111, R114) -/

/-- The bytes phases 1 to 3 fetch at `pc`, the opcode first: the latches in the report of a fault. -/
def State.bytesFetched (c : Config) (s : State) : List Byte :=
  if s.pc.toNat < c.memCells then
    Memory.read s.mem s.pc.toNat ::
      [Memory.read s.mem (s.pc.toNat + 1), Memory.read s.mem (s.pc.toNat + 2)].take (operandsFetched c s)
  else []

theorem operandsFetched_of_unrecognised (c : Config) {s : State} (hm : ∀ m, Memory.read s.mem s.pc.toNat ≠ opcode m) :
    operandsFetched c s = 0 :=
  if_neg fun h => (mem_opcodes_iff.1 h).elim hm

theorem operandsFetched_of_recognised (c : Config) {s : State} {m : Mnemonic}
    (hm : Memory.read s.mem s.pc.toNat = opcode m) :
    operandsFetched c s = min (cntField (opcode m)) (c.memCells - s.pc.toNat - 1) :=
  (if_pos (mem_opcodes_iff.2 ⟨m, hm⟩)).trans (by rw [hm]; rfl)

/-- Without an opcode byte no operand byte is fetched. -/
theorem operandsFetched_of_le {c : Config} {s : State} (hpc : c.memCells ≤ s.pc.toNat) : operandsFetched c s = 0 := by
  simp only [operandsFetched]
  split_ifs <;> omega

/-- The report of the bytes fetched, latch by latch. -/
theorem State.faultReport_bytesFetched (c : Config) (s : State) (value : Nat) :
    s.faultReport (s.bytesFetched c) value =
      { pc := s.pc
        ir := if s.pc.toNat < c.memCells then some (Memory.read s.mem s.pc.toNat) else none
        opa := if 1 ≤ operandsFetched c s then some (Memory.read s.mem (s.pc.toNat + 1)) else none
        opb := if 2 ≤ operandsFetched c s then some (Memory.read s.mem (s.pc.toNat + 2)) else none
        value := value
        regs := s.x } := by
  by_cases hpc : s.pc.toNat < c.memCells
  · simp [State.faultReport, State.bytesFetched, hpc, List.getElem?_take, Nat.lt_iff_add_one_le]
  · simp [State.faultReport, State.bytesFetched, hpc, operandsFetched_of_le (Nat.not_lt.1 hpc)]

/-- The latches of that report are the bytes at `pc`. -/
theorem latchesSound_bytesFetched (c : Config) (s : State) (value : Nat) :
    LatchesSound s (s.faultReport (s.bytesFetched c) value) := by
  rw [State.faultReport_bytesFetched]
  have hlatch {p : Prop} [Decidable p] {v b : Byte} (h : (if p then some v else none) = some b) : v = b :=
    Option.some.inj (Option.ite_none_right_eq_some.1 h).2
  exact ⟨fun _ => hlatch, fun _ => hlatch, fun _ => hlatch⟩

/-- The bytes fetched of an instruction that lies whole inside memory are its encoding. -/
theorem State.bytesFetched_of_fits {c : Config} {s : State} {m : Mnemonic}
    (hm : Memory.read s.mem s.pc.toNat = opcode m) (hfit : s.pc.toNat + cntField (opcode m) < c.memCells) :
    s.bytesFetched c =
      encode (assemble m (Memory.read s.mem (s.pc.toNat + 1)) (Memory.read s.mem (s.pc.toNat + 2))) := by
  have hcnt : operandsFetched c s = cntField (opcode m) := by
    rw [operandsFetched_of_recognised c hm]
    omega
  rw [State.bytesFetched, if_pos (by omega), encode_assemble, hcnt, hm]

/-- The bytes fetched of an instruction cut off by the end of memory are the opcode and the operand byte there is. -/
theorem State.bytesFetched_of_short {c : Config} {s : State} {m : Mnemonic} (hpc : s.pc.toNat < c.memCells)
    (hm : Memory.read s.mem s.pc.toNat = opcode m) (hshort : c.memCells ≤ s.pc.toNat + cntField (opcode m)) :
    s.bytesFetched c =
      opcode m :: if s.pc.toNat + 1 < c.memCells then [Memory.read s.mem (s.pc.toNat + 1)] else [] := by
  have hcnt := cntField_opcode_le_two m
  rw [State.bytesFetched, if_pos hpc, operandsFetched_of_recognised c hm, hm]
  split_ifs with h1
  · rw [show min (cntField (opcode m)) (c.memCells - s.pc.toNat - 1) = 1 by omega]
    rfl
  · rw [show min (cntField (opcode m)) (c.memCells - s.pc.toNat - 1) = 0 by omega]
    rfl

/-- A fault writes its report into `run` and nothing else. -/
theorem State.takeFault_eq (s : State) (cause : FaultCause) (fetched : List Byte) (value : Nat) :
    s.takeFault cause fetched value = { s with run := .faulted cause (s.faultReport fetched value) } :=
  rfl

/-! ### The first fault before execution (rule R248, phases 1 to 3) -/

theorem firstFault_of_le {c : Config} {s : State} (hpc : c.memCells ≤ s.pc.toNat) :
    firstFault c s = some (.addressOutOfRange, s.pc.toNat) :=
  if_pos hpc

/-- A byte in no row fails the check of its class. -/
theorem firstFault_of_unrecognised {c : Config} {s : State} (hpc : s.pc.toNat < c.memCells)
    (hm : ∀ m, Memory.read s.mem s.pc.toNat ≠ opcode m) :
    firstFault c s = some
      (if aluBit (Memory.read s.mem s.pc.toNat) then .unsupportedALUOperation else .invalidInstruction,
        (Memory.read s.mem s.pc.toNat).toNat) := by
  obtain ⟨htable, halu⟩ := not_or.1 (mem_opcodes_iff.not.2 (not_exists.2 hm))
  refine (if_neg (Nat.not_le.2 hpc)).trans ?_
  by_cases hbit : aluBit (Memory.read s.mem s.pc.toNat) = true
  · rw [hbit]
    exact if_pos ⟨hbit, halu⟩
  · have hclear := Bool.eq_false_iff.2 hbit
    rw [hclear]
    exact (if_neg fun h => hbit h.1).trans (if_pos ⟨hclear, htable⟩)

/-- The checks of rule R248 after the fetch, over the bytes of the instruction: the indices in order, MOD's divisor, CALL's
return address. -/
def operandFault (s : State) (ir opa opb : Byte) : Option (FaultCause × Nat) :=
  if 1 ≤ cntField ir ∧ 7 < opa.toNat then some (.registerIndexOutOfRange, opa.toNat)
  else if cntField ir = 2 ∧ ir ≠ 0x82 ∧ 7 < opb.toNat then some (.registerIndexOutOfRange, opb.toNat)
  else if ir = 0xA4 ∧ s.reg (low3 opb) = 0 then some (.divideByZero, 0xA4)
  else if ir = 0x50 ∧ 0xFF < s.afterTwo then some (.valueOutOfRange, s.afterTwo)
  else none

/-- An opcode of a row passes the check of its class. -/
theorem opcode_mem_of_aluBit (m : Mnemonic) :
    (aluBit (opcode m) = true → opcode m ∈ aluOpcodes) ∧ (aluBit (opcode m) = false → opcode m ∈ tableOpcodes) := by
  cases m <;> decide

/-- With an opcode of a row, the first fault is the first operand byte that does not exist, which would lie just past the
last cell, or else one of the checks after the fetch. -/
theorem firstFault_of_recognised {c : Config} {s : State} {m : Mnemonic} (hpc : s.pc.toNat < c.memCells)
    (hm : Memory.read s.mem s.pc.toNat = opcode m) :
    firstFault c s =
      if c.memCells ≤ s.pc.toNat + cntField (opcode m) then some (.addressOutOfRange, c.memCells)
      else operandFault s (opcode m) (Memory.read s.mem (s.pc.toNat + 1)) (Memory.read s.mem (s.pc.toNat + 2)) := by
  obtain ⟨halu, htable⟩ := opcode_mem_of_aluBit m
  have hcnt := cntField_opcode_le_two m
  simp only [firstFault, hm]
  rw [if_neg (Nat.not_le.2 hpc), if_neg (fun h => h.2 (halu h.1)), if_neg (fun h => h.2 (htable h.1))]
  by_cases h1 : 1 ≤ cntField (opcode m) ∧ c.memCells ≤ s.pc.toNat + 1
  · have hend : s.pc.toNat + 1 = c.memCells := by omega
    rw [if_pos (by omega : c.memCells ≤ s.pc.toNat + cntField (opcode m)), ← hend]
    exact if_pos (hend ▸ h1)
  · refine (if_neg h1).trans ?_
    by_cases h2 : cntField (opcode m) = 2 ∧ c.memCells ≤ s.pc.toNat + 2
    · have hend : s.pc.toNat + 2 = c.memCells := by omega
      rw [if_pos (by omega : c.memCells ≤ s.pc.toNat + cntField (opcode m)), ← hend]
      exact if_pos (hend ▸ h2)
    · rw [if_neg (by omega : ¬ c.memCells ≤ s.pc.toNat + cntField (opcode m))]
      exact if_neg h2

/-! ### The first fault of an instruction (rule R248, phase 4) -/

/-- The check of an index byte, and what is checked after it. -/
def indexFault (b : Byte) (rest : Option (FaultCause × Nat)) : Option (FaultCause × Nat) :=
  if 7 < b.toNat then some (.registerIndexOutOfRange, b.toNat) else rest

/-- The first fault of an instruction, if it has one. -/
def execFault (s : State) : Instr → Option (FaultCause × Nat)
  | .hlt | .ret => none
  | .push a | .pop a | .prn a | .jmp a | .jeq a | .jne a | .not a | .ldi a _ => indexFault a none
  | .call a => indexFault a (if 0xFF < s.afterTwo then some (.valueOutOfRange, s.afterTwo) else none)
  | .mod a b => indexFault a (indexFault b (if s.reg (low3 b) = 0 then some (.divideByZero, 0xA4) else none))
  | .add a b | .sub a b | .mul a b | .cmp a b | .and a b | .or a b | .xor a b | .shl a b | .shr a b =>
    indexFault a (indexFault b none)

/-- The checks over the bytes are those of the instruction the bytes make. -/
theorem operandFault_opcode (s : State) (m : Mnemonic) (a b : Byte) :
    operandFault s (opcode m) a b = execFault s (assemble m a b) := by
  cases m <;> simp [operandFault, opcode, cntField, assemble, execFault, indexFault]

/-- The outcome `o` is the answer to the first fault found in `s`: that fault taken with the bytes fetched, or, without
one, a state that runs or has halted. -/
def Answers (s : State) (fetched : List Byte) (o : Outcome) : Option (FaultCause × Nat) → Prop
  | some (cause, value) => o = .next (s.takeFault cause fetched value)
  | none => ∃ t, o = .next t ∧ (t.run = .running ∨ t.run = .halted)

/-- A state that runs on answers that there is no fault. -/
theorem Answers.goesOn {s t : State} {fetched : List Byte} (h : t.run = .running) : Answers s fetched (.next t) none :=
  ⟨t, rfl, .inl h⟩

/-- A check that answers its fault before it goes on. -/
theorem Answers.ite {s : State} {fetched : List Byte} {p : Prop} [Decidable p] {o o' : Outcome}
    {f f' : Option (FaultCause × Nat)} (h : Answers s fetched o f) (h' : Answers s fetched o' f') :
    Answers s fetched (if p then o else o') (if p then f else f') := by
  split_ifs
  · exact h
  · exact h'

/-- The check of a register operand answers the index fault first. -/
theorem Answers.withReg {i : Instr} {b : Byte} {s : State} {go : Reg → Outcome} {f : Option (FaultCause × Nat)}
    (h : ∀ r, b = regByte r → Answers s (encode i) (go r) f) :
    Answers s (encode i) (Machine.withReg i b s go) (indexFault b f) := by
  rcases regByte_or_bad b with ⟨r, rfl⟩ | hbad
  · rw [withReg_regByte, indexFault, if_neg (by rw [regByte_toNat]; omega)]
    exact h r rfl
  · rw [withReg_bad i hbad, indexFault, if_pos hbad]
    rfl

/-- The check of two answers that of the first before that of the second. -/
theorem Answers.withRegs {i : Instr} {opa opb : Byte} {s : State} {go : Reg → Reg → Outcome}
    {f : Option (FaultCause × Nat)} (h : ∀ a b, opb = regByte b → Answers s (encode i) (go a b) f) :
    Answers s (encode i) (Machine.withRegs i opa opb s go) (indexFault opa (indexFault opb f)) :=
  .withReg fun a _ => .withReg (h a)

/-- Every instruction answers its first fault. -/
theorem exec_answers {s : State} (hrun : s.run = .running) (i : Instr) :
    Answers s (encode i) (exec i s) (execFault s i) := by
  cases i with
  | hlt => exact ⟨s.halt, rfl, .inr rfl⟩
  | ret => exact .goesOn hrun
  | push | pop | prn | jmp | not | ldi => exact .withReg fun _ _ => .goesOn hrun
  | jeq | jne =>
    refine .withReg fun _ _ => ?_
    split_ifs <;> exact .goesOn hrun
  | call => exact .withReg fun _ _ => .ite rfl (.goesOn hrun)
  | mod =>
    refine .withRegs fun _ b hb => ?_
    rw [hb, low3_regByte]
    exact .ite rfl (.goesOn hrun)
  | add | sub | mul | cmp | and | or | xor | shl | shr => exact .withRegs fun _ _ _ => .goesOn hrun

/-! ### The first fault of a step (rules R243, R248) -/

/-- An opcode of a row and operand bytes that exist are fetched as the instruction they make. -/
theorem State.fetch_of_fits {c : Config} {s : State} {m : Mnemonic} (hm : Memory.read s.mem s.pc.toNat = opcode m)
    (hfit : s.pc.toNat + cntField (opcode m) < c.memCells) :
    s.fetch c = .ok (assemble m (Memory.read s.mem (s.pc.toNat + 1)) (Memory.read s.mem (s.pc.toNat + 2))) :=
  decodeFrom_eq_assemble (by rw [← hm]; exact Memory.fetchByte_of_lt (by omega) _)
    (fun _ => Memory.fetchByte_of_lt (by omega) _) (fun _ => Memory.fetchByte_of_lt (by omega) _)

/-- An opcode of a row whose operand bytes do not all exist takes the fault at the end of memory. -/
theorem State.step_of_short {c : Config} {s : State} {m : Mnemonic} (hpc : s.pc.toNat < c.memCells)
    (hm : Memory.read s.mem s.pc.toNat = opcode m) (hshort : c.memCells ≤ s.pc.toNat + cntField (opcode m))
    (hrun : s.run = .running) :
    stepWith c s = .next (s.takeFault .addressOutOfRange (s.bytesFetched c) c.memCells) := by
  rcases State.step_of_recognised hpc hm hrun with ⟨i, hf, -⟩ | ⟨-, hstep⟩
  · have hfit := (State.fetch_ok hf).1
    rw [encode_length, ← State.ir_of_fetch hf, hm, instrLength] at hfit
    omega
  · rw [hstep, State.bytesFetched_of_short hpc hm hshort]

/-- Every running step answers the first fault in the order of checks. -/
theorem stepWith_answers (c : Config) {s : State} (hrun : s.run = .running) :
    Answers s (s.bytesFetched c) (stepWith c s) (firstFault c s) := by
  by_cases hpc : s.pc.toNat < c.memCells
  · by_cases hrow : ∃ m, Memory.read s.mem s.pc.toNat = opcode m
    · obtain ⟨m, hm⟩ := hrow
      rw [firstFault_of_recognised hpc hm]
      split_ifs with hshort
      · exact State.step_of_short hpc hm hshort hrun
      · have hfit := Nat.not_le.1 hshort
        rw [operandFault_opcode, State.bytesFetched_of_fits hm hfit,
          stepWith_of_fetch_ok hrun (State.fetch_of_fits hm hfit)]
        exact exec_answers hrun _
    · have hm := not_exists.1 hrow
      rw [firstFault_of_unrecognised hpc hm, State.bytesFetched, if_pos hpc, operandsFetched_of_unrecognised c hm]
      exact State.step_of_unrecognised hpc hm hrun
  · have hle := Nat.not_lt.1 hpc
    rw [firstFault_of_le hle, State.bytesFetched, if_neg hpc]
    exact stepWith_of_fetch_error hrun (State.fetch_eq_noOpcode hle)

/-- Settles O37: the step answers the first fault, and the bytes fetched are the latches of the report. -/
theorem stepReportsTheFirstFault : Obligations.StepReportsTheFirstFault := by
  intro c s hrun
  have h := stepWith_answers c hrun
  cases hff : firstFault c s with
  | none => rwa [hff] at h
  | some fault =>
    rw [hff] at h
    rwa [Answers, State.takeFault_eq, State.faultReport_bytesFetched] at h

/-- Settles O38: a step that faults answers a fault found, with the bytes fetched; one that finds none does not fault. -/
theorem faultsArePrecise : Obligations.FaultsArePrecise := by
  intro c s t cause info h hfault
  have hans := stepWith_answers c (running_of_stepWith h)
  rw [h] at hans
  cases hff : firstFault c s with
  | none =>
    rw [hff] at hans
    obtain ⟨_, ⟨⟩, hrun | hrun⟩ := hans <;> cases hfault.symm.trans hrun
  | some fault =>
    rw [hff] at hans
    obtain rfl : t = _ := Host.Outcome.next.inj hans
    cases hfault
    exact ⟨rfl, rfl, rfl, latchesSound_bytesFetched c s _⟩

end Sys2Proof.Machine
end
